-- ==== Sys2Proof/Word.lean ====
section
/-! DEFINITION. The word types of the block and the transaction of its command interface (00_scope.md R12, 30_encoding.md R79). -/

namespace Sys2Proof

/-- A byte of the command buffer, of a frame or of a lookup table (R25, R33). -/
abbrev Byte := BitVec 8

/-- A global-brightness value, 7 bits unsigned (R24). -/
abbrev Brightness := BitVec 7

/-- A command code, 4 bits (R79). -/
abbrev Code := BitVec 4

/-- A phase value in degrees, as wide as a PHASE register: 9 bits (R29). -/
abbrev Angle := BitVec 9

/-- One frame: the byte sequence transmitted, byte 0 first (R76). -/
abbrev Frame := List Byte

/-- The three 8-bit components COLOR answers (R11). -/
structure Color where
  r : Byte
  g : Byte
  b : Byte
  deriving DecidableEq, Repr, Inhabited

/-- When FADE_IN transmits: after each light, or once per level (R8, R141). -/
inductive FadeWriteMode where
  | perLight
  | perLevel
  deriving DecidableEq, Repr, Inhabited

/-- A command as it arrives on the command interface: a 4-bit code and a list of integer operands,
unbounded and possibly negative (R12, R79). -/
structure Transaction where
  op   : Code
  args : List Int
  deriving DecidableEq, Repr

end Sys2Proof
end

