-- ==== Sys2Proof/Syntax.lean ====
section
/-! DEFINITION. The twelve commands, one constructor per row of the command table (30_encoding.md R80). -/

namespace Sys2Proof

/-- A command with its operands, in the order of R80. Operands are integers of any size and sign;
each command's rule checks their range (R12). -/
inductive Instr where
  /-- 0x0 CONSTRUCT pin, cc (R101). -/
  | construct (pin cc : Int)
  /-- 0x1 SET_CHANNEL_16 ch, v16 (R105). -/
  | setChannel16 (ch v16 : Int)
  /-- 0x2 SET_LED_16 i, r16, g16, b16 (R110). -/
  | setLed16 (i r16 g16 b16 : Int)
  /-- 0x3 SET_LED_8 i, r8, g8, b8 (R114). -/
  | setLed8 (i r8 g8 b8 : Int)
  /-- 0x4 SET_BRIGHTNESS r7, g7, b7 (R121). -/
  | setBrightness (r7 g7 b7 : Int)
  /-- 0x5 WRITE (R125). -/
  | write
  /-- 0x6 LEDS_SET_16 i, r16, g16, b16 (R130). -/
  | ledsSet16 (i r16 g16 b16 : Int)
  /-- 0x7 LEDS_SET_8 i, r8, g8, b8 (R134). -/
  | ledsSet8 (i r8 g8 b8 : Int)
  /-- 0x8 FADE_IN (R141). -/
  | fadeIn
  /-- 0x9 BUILD_LUT (R144). -/
  | buildLut
  /-- 0xA ARM (R146). -/
  | arm
  /-- 0xB TICK (R151). -/
  | tick
  deriving DecidableEq, Repr

end Sys2Proof
end

