-- ==== Sys2Proof/Decode.lean ====
section
/-! DEFINITION. The command interface (30_encoding.md R79 to R82): decoding a transaction, encoding a command,
and the reading of an opcode-table word as a transaction. -/

namespace Sys2Proof

/-- Why a transaction is no command (R81). -/
inductive DecodeError where
  /-- The code is one of 0xC..0xF. -/
  | undefinedOp
  /-- The code selects a command and the operand count is not that command's. -/
  | badArity
  deriving DecidableEq, Repr

/-- The number of operands a command code takes; none for the reserved codes 0xC..0xF (R80, R81). -/
def operandCount (op : Code) : Option Nat :=
  match op.toNat with
  | 0 | 1 => some 2
  | 2 | 3 | 6 | 7 => some 4
  | 4 => some 3
  | 5 | 8 | 9 | 10 | 11 => some 0
  | _ => none

/-- Decoding: the command code alone decides the command and its operand count (R82). Total on every
transaction; a reserved code or a wrong operand count is rejected by name (R81). -/
def decode (t : Transaction) : Except DecodeError Instr :=
  match t.op.toNat, t.args with
  | 0x0, [pin, cc] => .ok (.construct pin cc)
  | 0x1, [ch, v16] => .ok (.setChannel16 ch v16)
  | 0x2, [i, r, g, b] => .ok (.setLed16 i r g b)
  | 0x3, [i, r, g, b] => .ok (.setLed8 i r g b)
  | 0x4, [r, g, b] => .ok (.setBrightness r g b)
  | 0x5, [] => .ok .write
  | 0x6, [i, r, g, b] => .ok (.ledsSet16 i r g b)
  | 0x7, [i, r, g, b] => .ok (.ledsSet8 i r g b)
  | 0x8, [] => .ok .fadeIn
  | 0x9, [] => .ok .buildLut
  | 0xA, [] => .ok .arm
  | 0xB, [] => .ok .tick
  | n, _ => .error (if n < 0xC then .badArity else .undefinedOp)

/-- The command code of a command (R80). It is also what FAULT_OP records (R171). -/
def codeOf : Instr → Code
  | .construct _ _ => 0x0
  | .setChannel16 _ _ => 0x1
  | .setLed16 _ _ _ _ => 0x2
  | .setLed8 _ _ _ _ => 0x3
  | .setBrightness _ _ _ => 0x4
  | .write => 0x5
  | .ledsSet16 _ _ _ _ => 0x6
  | .ledsSet8 _ _ _ _ => 0x7
  | .fadeIn => 0x8
  | .buildLut => 0x9
  | .arm => 0xA
  | .tick => 0xB

/-- The operands of a command in the order of R80. -/
def operandsOf : Instr → List Int
  | .construct pin cc => [pin, cc]
  | .setChannel16 ch v16 => [ch, v16]
  | .setLed16 i r g b => [i, r, g, b]
  | .setLed8 i r g b => [i, r, g, b]
  | .setBrightness r g b => [r, g, b]
  | .write => []
  | .ledsSet16 i r g b => [i, r, g, b]
  | .ledsSet8 i r g b => [i, r, g, b]
  | .fadeIn => []
  | .buildLut => []
  | .arm => []
  | .tick => []

/-- The transaction of a command (R79, R80). -/
def encode (i : Instr) : Transaction := ⟨codeOf i, operandsOf i⟩

/-- An opcode-table word as a transaction. The table gives a row four bits, the command code, in bits 3..0
of its one word, and gives operand words no bits: they are zeros, as many as the code takes. Bits above the
code belong to no field of the spec; a word that has one of them set is read as carrying an operand too
many, which the decoder rejects (entry 17). `nbits` is how many bits of `w` there are. -/
def tableTransaction (nbits w : Nat) : Transaction :=
  let bits := w % 2 ^ nbits
  let op : Code := BitVec.ofNat 4 bits
  let zeros : List Int := List.replicate ((operandCount op).getD 0) 0
  ⟨op, if bits < 16 then zeros else Int.ofNat (bits / 16) :: zeros⟩

/-- The command this decoder reads from an opcode-table word. -/
def decodeTableWord (nbits w : Nat) : Option Instr :=
  match decode (tableTransaction nbits w) with
  | .ok i => some i
  | .error _ => none

end Sys2Proof
end

