-- ==== Sys2Proof/Config.lean ====
section
/-! DEFINITION. The implementation parameters of 00_scope.md R8: the fixed ones as definitions, the open ones
as constants with no body, so that a statement about them holds whatever they are. -/

namespace Sys2Proof.Config

/-- N_LIGHTS, the number of animated lights (R8). -/
abbrev nLights : Nat := 4

/-- SEP, the phase separation in degrees; it fixes `initPhase` only (R8). -/
def sep : Nat := 37

/-- ADV, ticks per light before the light select moves on (R8). -/
def adv : BitVec 5 := 26#5

/-- PHASE_MOD, the number of phase values (R8). -/
abbrev phaseMod : Nat := 360

/-- LUT_LEN, entries per lookup table (R8). -/
abbrev lutLen : Nat := 360

/-- DEFAULT_BC, the default global brightness of each colour (R8, C1, D6). -/
def defaultBc : Brightness := 0x7F#7

/-- The number of FADE_LEVELS 0, 1, ..., 254 (R8). -/
def fadeLevels : Nat := 255

/-- INIT_PHASE: 0, one and two separations, and 180 (R8, R29, D12). -/
def initPhase : Vector Angle nLights :=
  #v[0#9, BitVec.ofNat 9 sep, BitVec.ofNat 9 (2 * sep), 180#9]

/-- MAGIC5, the write-command magic value of the header: OPEN (R8, R27, D5). -/
opaque magic5 : BitVec 5

/-- CFG7, the configuration constant of the header: OPEN, no bit of it interpreted (R8, R27, R75). -/
opaque cfg7 : BitVec 7

/-- COLOR, the colour-wheel function of angle, saturation and value: OPEN, a function and nothing more
(R11, D21). The rules ask it for angles 0..359 only. -/
opaque color : Angle → Byte → Byte → Color

/-- FADE_WRITE_MODE, a parameter (R8, D17): statements hold in either mode. -/
opaque fadeWriteMode : FadeWriteMode

/-- FADE_DELAY, the pause between fade-in frames: OPEN, no rule depends on it (R8, D23). -/
opaque fadeDelay : Nat

/-- TICK_PERIOD: OPEN, no rule depends on it (R8, D23); nothing in the model reads it. -/
opaque tickPeriod : Nat

/-- BUS_BIT_ORDER, the order in which the bits of a byte go out: OPEN, no rule depends on it
(R8, R76, D22); nothing in the model reads it. -/
opaque busBitOrder : Fin 8 → Fin 8

end Sys2Proof.Config
end

