-- ==== Sys2Proof/Machine/State.lean ====
section
/-! DEFINITION. The state of the block (10_state.md R20 to R42), the reasons a step can stop, and the state after
reset (70_reset_and_hazards.md R190). -/

namespace Sys2Proof.Machine

/-- The command buffer BUF as (address, byte) cells. An unlisted address has no value: before CONSTRUCT the
buffer does not exist, and beyond BUF_LEN there is no byte (R25, R50; entry 14). -/
abbrev Memory := List Host.Cell

/-- The canonical form: addresses strictly rising. An unlisted address reads as no value, so no listed entry
can equal it. -/
abbrev Memory.wf (m : Memory) : Prop := (m.map Prod.fst).Pairwise (· < ·)

/-- The encoder's state that exists from CONSTRUCT on (R22 to R25). -/
structure ChipDriver where
  /-- CC, the channel count (R23). -/
  cc  : Nat
  /-- BC_R (R24). -/
  bcR : Brightness
  /-- BC_G (R24). -/
  bcG : Brightness
  /-- BC_B (R24). -/
  bcB : Brightness
  /-- BUF; its bytes 0..3 are the header, which is no separate register (R25, R26). -/
  buf : Memory
  deriving DecidableEq, Repr

/-- The three lookup tables LUT_R, LUT_G, LUT_B (R33). -/
structure Luts where
  r : Vector Byte Config.lutLen
  g : Vector Byte Config.lutLen
  b : Vector Byte Config.lutLen
  deriving DecidableEq, Repr

/-- MODE, the execution context (R35). -/
inductive Mode where
  | setup
  | steady
  deriving DecidableEq, Repr

/-- FAULT_CODE (R36, R172). -/
inductive FaultCode where
  | none
  | channelCount
  | channelIndex
  | pwmValue
  | brightnessValue
  deriving DecidableEq, Repr

/-- The number of a fault code (R172). -/
def FaultCode.number : FaultCode → Nat
  | .none => 0
  | .channelCount => 1
  | .channelIndex => 2
  | .pwmValue => 3
  | .brightnessValue => 4

/-- One `emit Delay(FADE_DELAY)` (R15, R141): how many frames stood in FRAMES when it was emitted, and the
pause. The model's own record (entry 16). -/
structure Pause where
  afterFrames : Nat
  length      : Nat
  deriving DecidableEq, Repr

/-- What reaches the block from outside: a command transaction (R79), or power-on, which is the reset (R190). -/
inductive Input where
  | command (t : Transaction)
  | powerOn
  deriving DecidableEq, Repr

/-- Everything the spec gives the machine, and two records of the model's own: `pauses` (entry 16) and
`inbox` (entry 2). -/
structure State where
  /-- CONSTRUCTED and what exists while it is 1: CC, BC_R, BC_G, BC_B, BUF (R22 to R25, R42; entry 6). -/
  driver    : Option ChipDriver
  /-- PHASE[0..3] (R29). -/
  phase     : Vector Angle Config.nLights
  /-- IDX, the light select (R31). -/
  idx       : Fin Config.nLights
  /-- CNT, the frame countdown (R32; entry 12). -/
  cnt       : BitVec 5
  /-- LUT_VALID and the tables that hold values while it is 1 (R33, R34, R42; entry 6). -/
  lut       : Option Luts
  /-- MODE (R35). -/
  mode      : Mode
  /-- FAULT (R36). -/
  fault     : Bool
  /-- FAULT_CODE (R36). -/
  faultCode : FaultCode
  /-- FAULT_OP (R36). -/
  faultOp   : Code
  /-- FRAMES, oldest first (R40). -/
  frames    : List Frame
  /-- The pauses emitted, oldest first. -/
  pauses    : List Pause
  /-- The inputs not yet delivered, the next one first. -/
  inbox     : List Input
  deriving DecidableEq, Repr

/-- CONSTRUCTED (R22). -/
def State.constructed (s : State) : Bool := s.driver.isSome

/-- LUT_VALID (R34). -/
def State.lutValid (s : State) : Bool := s.lut.isSome

/-- Why the machine stops with no next state. (The block's own faults of R172 are not here: raising one is a
next state, with FAULT set.) -/
inductive Fault where
  /-- Raised by `step` and every meaning when FAULT = 1: "no command and no tick has a step" (R171). Safe. -/
  | faulted
  /-- Raised by TICK when the tables hold no value; no state a run reaches does that, since ARM is refused
  until they are built (R34). Safe. -/
  | tableHoldsNoValue
  /-- Raised by TICK when the phase is not in 0..359, so that no table entry has its index; no state a run
  reaches does that (R30, R52). Safe. -/
  | noSuchTableEntry
  deriving DecidableEq, Repr

/-- Why a transaction is refused: the reasons of R178, and the host's for a command without a meaning. -/
inductive Refusal where
  /-- Raised by `step` on a command code 0xC..0xF (R81). Safe. -/
  | undefinedOp
  /-- Raised by `step` on a wrong operand count (R81). Safe. -/
  | badArity
  /-- Raised by every command but CONSTRUCT while CONSTRUCTED = 0. Safe. -/
  | notConstructed
  /-- Raised by CONSTRUCT while CONSTRUCTED = 1. Safe. -/
  | reconstruct
  /-- Raised by every command but TICK while MODE = STEADY. Safe. -/
  | hostInSteady
  /-- Raised by TICK while MODE = SETUP. Safe. -/
  | tickInSetup
  /-- Raised by ARM while LUT_VALID = 0. Safe. -/
  | lutNotBuilt
  /-- Raised by an arm of `exec` with no meaning yet; no arm is left so. Safe. -/
  | notModelled (mnemonic : String)
  deriving DecidableEq, Repr

/-- The state right after reset (R190). -/
def State.reset : State where
  driver    := none
  phase     := Config.initPhase
  idx       := 0
  cnt       := Config.adv
  lut       := none
  mode      := .setup
  fault     := false
  faultCode := .none
  faultOp   := 0
  frames    := []
  pauses    := []
  inbox     := []

end Sys2Proof.Machine
end

