-- ==== Sys2Proof/Machine/Flags.lean ====
section
/-! DEFINITION. The status bits and the admission checks that read them (10_state.md R37; 60_exceptions.md R177,
R178). The block has no arithmetic flags and no condition codes (R37). -/

namespace Sys2Proof.Machine

/-- What a step of the block answers. -/
abbrev Result := Host.Outcome State Fault Refusal

/-- Admission of CONSTRUCT, in the order of R177: FAULT, then MODE, then CONSTRUCTED (R100). -/
def admitConstruct (s : State) (body : Result) : Result :=
  if s.fault then .fault .faulted
  else match s.mode with
    | .steady => .refused .hostInSteady
    | .setup => if s.constructed then .refused .reconstruct else body

/-- Admission of every other host command, in the order of R177: FAULT, then MODE, then CONSTRUCTED
(R100, R140). The body gets the encoder's state, which exists. -/
def admitHost (s : State) (body : ChipDriver → Result) : Result :=
  if s.fault then .fault .faulted
  else match s.mode, s.driver with
    | .steady, _ => .refused .hostInSteady
    | .setup, none => .refused .notConstructed
    | .setup, some d => body d

/-- Admission of TICK, in the order of R177 (R140). -/
def admitTick (s : State) (body : ChipDriver → Result) : Result :=
  if s.fault then .fault .faulted
  else match s.mode, s.driver with
    | .setup, _ => .refused .tickInSetup
    | .steady, none => .refused .notConstructed
    | .steady, some d => body d

end Sys2Proof.Machine
end

