-- ==== Sys2Proof/Machine/Operands.lean ====
section
/-! DEFINITION. The operand forms of the channel stores (30_encoding.md R78) and the helper functions of
00_scope.md R17 they use. -/

namespace Sys2Proof.Machine

/-- `rep8(v8) = (v8 << 8) | v8` (R17). -/
def rep8 (v8 : Nat) : Nat := (v8 <<< 8) ||| v8

/-- `inv8(v8) = 255 - v8` (R17). -/
def inv8 (v8 : Nat) : Nat := 255 - v8

/-- `inv16(v16) = 65535 - v16` (R17). -/
def inv16 (v16 : Nat) : Nat := 65535 - v16

/-- The four ways an operand becomes the 16-bit channel value that is stored (R78). -/
inductive OperandForm where
  /-- 16-bit direct: SET_CHANNEL_16, SET_LED_16. -/
  | direct16
  /-- 8-bit replicated: SET_LED_8. -/
  | replicated8
  /-- Inverted: LEDS_SET_16. -/
  | inverted16
  /-- Inverted 8-bit: LEDS_SET_8, FADE_IN, TICK. -/
  | inverted8
  deriving DecidableEq, Repr

/-- The largest operand the form takes; the check is on the operand, before it is inverted or replicated
(R105, R114, R130, R131, R134). -/
def operandMax : OperandForm → Int
  | .direct16 => 65535
  | .replicated8 => 255
  | .inverted16 => 65535
  | .inverted8 => 255

/-- The channel value `v16` the form makes of an operand in range (R78). -/
def channelValue : OperandForm → Nat → Nat
  | .direct16, v => v
  | .replicated8, v => rep8 v
  | .inverted16, v => inv16 v
  | .inverted8, v => rep8 (inv8 v)

end Sys2Proof.Machine
end

