-- ==== Sys2Proof/Machine/Ops.lean ====
section
/-! DEFINITION. The named operations over the command buffer, the header, the bus output and the fault record. -/

namespace Sys2Proof.Machine

/-! ## The command buffer -/

/-- `BUF[a]` (R15); none where the buffer has no byte `a`. -/
def readByte : Memory → Nat → Option Byte
  | [], _ => none
  | (k, b) :: rest, a => if a = k then some b else readByte rest a

/-- `BUF[a] <- b` (R15), keeping the addresses strictly rising. -/
def writeByte : Memory → Nat → Byte → Memory
  | [], a, b => [(a, b)]
  | (k, c) :: rest, a, b =>
    if a < k then (a, b) :: (k, c) :: rest
    else if a = k then (a, b) :: rest
    else (k, c) :: writeByte rest a b

/-- `MemRead(a, n)`: the big-endian value of `n` bytes from address `a` (R15, R53). -/
def memRead (m : Memory) (a : Nat) : Nat → Option Nat
  | 0 => some 0
  | n + 1 =>
    match memRead m a n, readByte m (a + n) with
    | some hi, some lo => some (hi <<< 8 ||| lo.toNat)
    | _, _ => none

/-- `MemWrite(a, n, v)`: `v` as `n` bytes, the most significant at address `a` (R15, R53). -/
def memWrite (a : Nat) : Nat → Nat → Memory → Memory
  | 0, _, m => m
  | n + 1, v, m => writeByte (memWrite a n (v >>> 8) m) (a + n) (BitVec.ofNat 8 v)

/-- `BUF_LEN = 4 + 2*CC` (R9, R25). -/
def bufLen (cc : Nat) : Nat := 4 + 2 * cc

/-- `offset(ch) = 4 + 2*(CC - ch - 1)`, the byte address of channel `ch < CC` (R17, R55). -/
def offset (cc ch : Nat) : Nat := 4 + 2 * (cc - ch - 1)

/-- `BUF[0 .. BUF_LEN-1]` newly created, every byte 0x00 (R28, R101, D7). -/
def createBuffer (cc : Nat) : Memory := (List.range (bufLen cc)).map fun k => (k, 0x00#8)

/-- `BUF[0], BUF[1], ..., BUF[BUF_LEN-1]`: the frame the buffer makes, byte 0 first (R76). -/
def frameOf (m : Memory) : Frame := m.map Prod.snd

/-! ## The header -/

/-- The header word for given constants: the five fields shifted and OR-ed, truncated to 32 bits (R71). -/
def hdrOf (magic5 : BitVec 5) (cfg7 : BitVec 7) (r7 g7 b7 : Brightness) : Nat :=
  ((((((((magic5.toNat <<< 7) ||| cfg7.toNat) <<< 7) ||| r7.toNat) <<< 7) ||| g7.toNat) <<< 7) ||| b7.toNat)
    % 2 ^ 32

/-- `hdr(r7, g7, b7)` (R17). -/
def hdr (r7 g7 b7 : Brightness) : Nat := hdrOf Config.magic5 Config.cfg7 r7 g7 b7

/-- `TOP11 = ((MAGIC5 mod 16) << 7) | CFG7`, the header's bits 31:21 (R73). -/
def top11 : Nat := ((Config.magic5.toNat % 16) <<< 7) ||| Config.cfg7.toNat

/-- `MemWrite(offset(ch), 2, v16)`: the 16-bit value of one channel (R105). -/
def putChannel (ch v16 : Nat) (d : ChipDriver) : ChipDriver :=
  { d with buf := memWrite (offset d.cc ch) 2 v16 d.buf }

/-- Set the brightness registers and the header made of them (R101, R121); no other byte is written. -/
def setBrightness (r7 g7 b7 : Brightness) (d : ChipDriver) : ChipDriver :=
  { d with bcR := r7, bcG := g7, bcB := b7, buf := memWrite 0 4 (hdr r7 g7 b7) d.buf }

/-- The encoder's state CONSTRUCT makes for a channel count (R101). -/
def newDriver (cc : Nat) : ChipDriver :=
  setBrightness Config.defaultBc Config.defaultBc Config.defaultBc
    { cc := cc, bcR := Config.defaultBc, bcG := Config.defaultBc, bcB := Config.defaultBc, buf := createBuffer cc }

/-! ## Taking a fault, and leaving it -/

/-- `raise Fault(code)` in the command with code `op`: the whole of the block's fault entry (R171, R179). No
register saves a pc or a status, and nothing is jumped to: FAULT, FAULT_CODE and FAULT_OP are written. -/
def raiseFault (op : Code) (code : FaultCode) (s : State) : State :=
  { s with fault := true, faultCode := code, faultOp := op }

/-- There is no return from a fault; power-on is the only way out (R180). It puts every element at its reset
value and starts a new run, FRAMES empty (R190); `rest` is what the outside still has to deliver. -/
def powerOn (rest : List Input) : State := { State.reset with inbox := rest }

/-! ## The primitive steps a command is made of -/

/-- How far a command has come: the encoder's state, the outputs, and the fault raised so far. -/
structure Progress where
  driver  : ChipDriver
  frames  : List Frame
  pauses  : List Pause
  raised  : Option FaultCode
  deriving DecidableEq, Repr

/-- The command at its start. -/
def begin (s : State) (d : ChipDriver) : Progress := ⟨d, s.frames, s.pauses, none⟩

/-- Do the next primitive step, unless a fault has been raised: a fault ends the command at once (R15, R171). -/
def thenDo (p : Progress) (f : Progress → Progress) : Progress :=
  match p.raised with
  | none => f p
  | some _ => p

/-- One channel store of the given operand form: the channel check, then the value check, then the two bytes
at `offset(c)` (R105, R110, R114, R130, R134; the order is D10). -/
def storeChannel (form : OperandForm) (c v : Int) (p : Progress) : Progress :=
  if c < 0 ∨ c ≥ p.driver.cc then { p with raised := some .channelIndex }
  else if v < 0 ∨ v > operandMax form then { p with raised := some .pwmValue }
  else { p with driver := putChannel c.toNat (channelValue form v.toNat) p.driver }

/-- The three channel stores of LED `i`, red, green, blue (R110, R114, R130, R134). -/
def storeLed (form : OperandForm) (i r g b : Int) (p : Progress) : Progress :=
  thenDo (thenDo (thenDo p (storeChannel form (3 * i) r)) (storeChannel form (3 * i + 1) g))
    (storeChannel form (3 * i + 2) b)

/-- `emit Frame(BUF[0], ..., BUF[BUF_LEN-1])`: append a snapshot of the buffer to FRAMES (R40, R66, R125). -/
def emitFrame (p : Progress) : Progress := { p with frames := p.frames ++ [frameOf p.driver.buf] }

/-- `emit Delay(length)`: record a pause (R15, R141). -/
def emitDelay (length : Nat) (p : Progress) : Progress :=
  { p with pauses := p.pauses ++ [⟨p.frames.length, length⟩] }

/-- The effects done so far, put into the state. -/
def commit (s : State) (p : Progress) : State :=
  { s with driver := some p.driver, frames := p.frames, pauses := p.pauses }

/-- The end of the command with code `op`: `after` is what it still does when no fault was raised; when one
was, what was done before stays and the fault is taken (R171, R181, D9). -/
def finish (op : Code) (s : State) (p : Progress) (after : State → State := id) : State :=
  match p.raised with
  | none => after (commit s p)
  | some code => raiseFault op code (commit s p)

end Sys2Proof.Machine
end

