-- ==== Sys2Proof/Machine/Encoder.lean ====
section
/-! DEFINITION. The encoder's commands (40_chipdriver.md sections 1 to 6). -/

namespace Sys2Proof.Machine

/-- CONSTRUCT (R101, R102). `pin` has no effect (D25). -/
def execConstruct (pin cc : Int) (s : State) : Result :=
  admitConstruct s <|
    if cc ≤ 0 ∨ cc % 12 ≠ 0 then .next (raiseFault (codeOf (.construct pin cc)) .channelCount s)
    else .next { s with driver := some (newDriver cc.toNat) }

/-- SET_CHANNEL_16 (R105, R106). -/
def execSetChannel16 (ch v16 : Int) (s : State) : Result :=
  admitHost s fun d =>
    .next (finish (codeOf (.setChannel16 ch v16)) s (storeChannel .direct16 ch v16 (begin s d)))

/-- SET_LED_16 (R110, R111). -/
def execSetLed16 (i r16 g16 b16 : Int) (s : State) : Result :=
  admitHost s fun d =>
    .next (finish (codeOf (.setLed16 i r16 g16 b16)) s (storeLed .direct16 i r16 g16 b16 (begin s d)))

/-- SET_LED_8 (R114, R115). -/
def execSetLed8 (i r8 g8 b8 : Int) (s : State) : Result :=
  admitHost s fun d =>
    .next (finish (codeOf (.setLed8 i r8 g8 b8)) s (storeLed .replicated8 i r8 g8 b8 (begin s d)))

/-- SET_BRIGHTNESS (R120 to R122): all three checks before any write (D10). -/
def execSetBrightness (r7 g7 b7 : Int) (s : State) : Result :=
  admitHost s fun d =>
    if r7 < 0 ∨ r7 > 127 ∨ g7 < 0 ∨ g7 > 127 ∨ b7 < 0 ∨ b7 > 127 then
      .next (raiseFault (codeOf (.setBrightness r7 g7 b7)) .brightnessValue s)
    else
      let d' := setBrightness (BitVec.ofNat 7 r7.toNat) (BitVec.ofNat 7 g7.toNat) (BitVec.ofNat 7 b7.toNat) d
      .next { s with driver := some d' }

/-- WRITE (R125, R126). -/
def execWrite (s : State) : Result :=
  admitHost s fun d => .next (finish (codeOf .write) s (emitFrame (begin s d)))

end Sys2Proof.Machine
end

