-- ==== Sys2Proof/Machine/Leds.lean ====
section
/-! DEFINITION. The polarity-inverting wrapper's commands (40_chipdriver.md sections 7 and 8). The wrapper stores and
does not transmit (D18). -/

namespace Sys2Proof.Machine

/-- LEDS_SET_16 (R130, R131). -/
def execLedsSet16 (i r16 g16 b16 : Int) (s : State) : Result :=
  admitHost s fun d =>
    .next (finish (codeOf (.ledsSet16 i r16 g16 b16)) s (storeLed .inverted16 i r16 g16 b16 (begin s d)))

/-- LEDS_SET_8 (R134, R135). -/
def execLedsSet8 (i r8 g8 b8 : Int) (s : State) : Result :=
  admitHost s fun d =>
    .next (finish (codeOf (.ledsSet8 i r8 g8 b8)) s (storeLed .inverted8 i r8 g8 b8 (begin s d)))

end Sys2Proof.Machine
end

