-- ==== Sys2Proof/Machine/Sequencer.lean ====
section
/-! DEFINITION. The sequencer's commands (45_animation.md). The encoder commands they run are internal steps, not
subject to the MODE check (R100). -/

namespace Sys2Proof.Machine

/-! ## FADE_IN -/

/-- The lights 0..3, in order. -/
def lights : List (Fin Config.nLights) := [0, 1, 2, 3]

/-- Render a light through the inverting wrapper: LEDS_SET_8 of LED `l` with a colour (R141, R151; D11, D15). -/
def renderLight (l : Fin Config.nLights) (c : Color) (p : Progress) : Progress :=
  storeLed .inverted8 l.val c.r.toNat c.g.toNat c.b.toNat p

/-- One light of one fade level: render it and, in PER_LIGHT mode, WRITE (R141). -/
def fadeLight (color : Angle → Byte → Byte → Color) (mode : FadeWriteMode)
    (phase : Vector Angle Config.nLights) (level : Byte) (p : Progress) (l : Fin Config.nLights) : Progress :=
  let p := thenDo p (renderLight l (color phase[l] 255#8 level))
  match mode with
  | .perLight => thenDo p emitFrame
  | .perLevel => p

/-- One fade level: the four lights, a WRITE in PER_LEVEL mode, and the pause (R141). -/
def fadeLevel (color : Angle → Byte → Byte → Color) (mode : FadeWriteMode) (delay : Nat)
    (phase : Vector Angle Config.nLights) (p : Progress) (level : Nat) : Progress :=
  let p := lights.foldl (fadeLight color mode phase (BitVec.ofNat 8 level)) p
  let p := match mode with
    | .perLight => p
    | .perLevel => thenDo p emitFrame
  thenDo p (emitDelay delay)

/-- The whole fade: levels 0..254 (R141). The parameters are arguments, so that statements can vary them. -/
def fade (color : Angle → Byte → Byte → Color) (mode : FadeWriteMode) (delay : Nat)
    (phase : Vector Angle Config.nLights) (p : Progress) : Progress :=
  (List.range Config.fadeLevels).foldl (fadeLevel color mode delay phase) p

/-- FADE_IN (R141, R142). No sequencer register is written (D34). -/
def execFadeIn (s : State) : Result :=
  admitHost s fun d =>
    .next (finish (codeOf .fadeIn) s
      (fade Config.color Config.fadeWriteMode Config.fadeDelay s.phase (begin s d)))

/-! ## BUILD_LUT and ARM -/

/-- One table: the value for each degree 0..359 (R144). -/
def buildTable (value : Angle → Byte) : Vector Byte Config.lutLen :=
  ⟨⟨(List.range Config.lutLen).map fun a => value (BitVec.ofNat 9 a)⟩, by simp⟩

/-- The three tables, `COLOR(a, 255, 255)` for every degree (R144). -/
def buildTables (color : Angle → Byte → Byte → Color) : Luts where
  r := buildTable fun a => (color a 255#8 255#8).r
  g := buildTable fun a => (color a 255#8 255#8).g
  b := buildTable fun a => (color a 255#8 255#8).b

/-- BUILD_LUT (R144, R145): the tables and LUT_VALID. -/
def execBuildLut (s : State) : Result :=
  admitHost s fun _ => .next { s with lut := some (buildTables Config.color) }

/-- ARM (R146, R147): refused until the tables are built; then MODE becomes STEADY. -/
def execArm (s : State) : Result :=
  admitHost s fun _ =>
    if s.lutValid then .next { s with mode := .steady } else .refused .lutNotBuilt

/-! ## TICK -/

/-- The table entry for a phase (R52, R151). -/
def lutColor (t : Luts) (p : Fin Config.lutLen) : Color := ⟨t.r[p], t.g[p], t.b[p]⟩

/-- Step 2 of the tick: `PHASE[l] <- (p + 1) mod 360` (R151). -/
def advancePhase (s : State) : State :=
  { s with phase := s.phase.set s.idx (BitVec.ofNat 9 ((s.phase[s.idx].toNat + 1) % Config.phaseMod)) }

/-- Step 3 of the tick: decrement CNT and, when it is then zero, move IDX on and reload CNT (R151, R153). -/
def countDown (s : State) : State :=
  let cnt := s.cnt - 1
  if cnt = 0 then { s with idx := s.idx + 1, cnt := Config.adv } else { s with cnt := cnt }

/-- The three steps of the tick, with the advancing light's phase known to index the tables (R151). -/
def tick (t : Luts) (p : Fin Config.lutLen) (d : ChipDriver) (s : State) : State :=
  finish (codeOf .tick) s
    (thenDo (renderLight s.idx (lutColor t p) (begin s d)) emitFrame)
    fun s => countDown (advancePhase s)

/-- TICK (R150 to R157). -/
def execTick (s : State) : Result :=
  admitTick s fun d =>
    match s.lut with
    | none => .fault .tableHoldsNoValue
    | some t =>
      if h : s.phase[s.idx].toNat < Config.lutLen then .next (tick t ⟨s.phase[s.idx].toNat, h⟩ d s)
      else .fault .noSuchTableEntry

end Sys2Proof.Machine
end

