-- ==== Sys2Proof/Machine/Dispatch.lean ====
section
/-! DEFINITION. One arm per command of 30_encoding.md R80. -/

namespace Sys2Proof.Machine

def exec (i : Instr) (s : State) : Host.Outcome State Fault Refusal :=
  match i with
  | .construct pin cc => Sys2Proof.Machine.execConstruct pin cc s
  | .setChannel16 ch v16 => Sys2Proof.Machine.execSetChannel16 ch v16 s
  | .setLed16 led r16 g16 b16 => Sys2Proof.Machine.execSetLed16 led r16 g16 b16 s
  | .setLed8 led r8 g8 b8 => Sys2Proof.Machine.execSetLed8 led r8 g8 b8 s
  | .setBrightness r7 g7 b7 => Sys2Proof.Machine.execSetBrightness r7 g7 b7 s
  | .write => Sys2Proof.Machine.execWrite s
  | .ledsSet16 led r16 g16 b16 => Sys2Proof.Machine.execLedsSet16 led r16 g16 b16 s
  | .ledsSet8 led r8 g8 b8 => Sys2Proof.Machine.execLedsSet8 led r8 g8 b8 s
  | .fadeIn => Sys2Proof.Machine.execFadeIn s
  | .buildLut => Sys2Proof.Machine.execBuildLut s
  | .arm => Sys2Proof.Machine.execArm s
  | .tick => Sys2Proof.Machine.execTick s

end Sys2Proof.Machine
end

