-- ==== Sys2Proof/Machine/Fetch.lean ====
section
/-! DEFINITION. Delivery of the next input. The block has no program counter and fetches nothing: commands arrive one
at a time on the command interface (10_state.md R21, 30_encoding.md R79). -/

namespace Sys2Proof.Machine

/-- What the next input comes to. -/
inductive Delivery where
  /-- Nothing has arrived: the block waits (R191). -/
  | waits
  /-- Power-on (R190), with the state it leaves. -/
  | resets (s : State)
  /-- The block is in the faulted state, where nothing has a step (R171). -/
  | stopped
  /-- The transaction is no command (R81). -/
  | refuses (r : Refusal)
  /-- A command, and the state it runs in: its transaction has been taken from the inbox. -/
  | runs (i : Instr) (s : State)

/-- The refusal reason of a transaction that does not decode (R81, R178). -/
def refusalOf : DecodeError → Refusal
  | .undefinedOp => .undefinedOp
  | .badArity => .badArity

/-- Deliver the next input. FAULT is checked before the command code and the operand count (R177). -/
def deliver (s : State) : Delivery :=
  match s.inbox with
  | .powerOn :: rest => .resets (powerOn rest)
  | [] => if s.fault then .stopped else .waits
  | .command t :: rest =>
    if s.fault then .stopped
    else match decode t with
      | .error e => .refuses (refusalOf e)
      | .ok i => .runs i { s with inbox := rest }

/-- The state with one transaction more, delivered next. -/
def present (t : Transaction) (s : State) : State := { s with inbox := .command t :: s.inbox }

end Sys2Proof.Machine
end

