-- ==== Sys2Proof/Machine/Step.lean ====
section
/-! DEFINITION. One step of the block: deliver the next input and, if it is a command, perform it (00_scope.md R16). -/

namespace Sys2Proof.Machine

/-- One step. -/
def step (s : State) : Host.Outcome State Fault Refusal :=
  match deliver s with
  | .waits => .next s
  | .resets s' => .next s'
  | .stopped => .fault .faulted
  | .refuses r => .refused r
  | .runs i s' => exec i s'

/-- The state with an opcode-table word's transaction as the next one the block is given. -/
def State.withFetchWord (s : State) (nbits w : Nat) : State := present (tableTransaction nbits w) s

end Sys2Proof.Machine
end

