-- ==== Sys2Proof/Safety.lean ====
section
/-! DEFINITION. What counts as a safe run (70_reset_and_hazards.md R200), the invariant of the block, and the terms
its statements are written in. -/

namespace Sys2Proof

open Sys2Proof.Machine

/-! ## Runs -/

/-- The observation of a run at a command boundary: FRAMES and the fault record (R200). -/
structure Observation where
  frames    : List Frame
  fault     : Bool
  faultCode : FaultCode
  faultOp   : Code
  deriving DecidableEq, Repr

/-- The observation of a state (R200). -/
def observe (s : State) : Observation := ⟨s.frames, s.fault, s.faultCode, s.faultOp⟩

/-- A step's answer is good: it is a next state in which FAULT = 0. "A run is bad if FAULT = 1 or if any
command was refused" (R200). -/
def goodAnswer : Result → Bool
  | .next s => !s.fault
  | .fault _ => false
  | .refused _ => false

/-- `k` ticks in a row, from the timer (R176). -/
def runTicks : Nat → State → Result
  | 0, s => .next s
  | k + 1, s =>
    match exec .tick s with
    | .next s' => runTicks k s'
    | r => r

/-- Go on with the next of several commands, unless the last one faulted. -/
def unlessFaulted (r : Result) (f : State → Result) : Result :=
  match r with
  | .next s => if s.fault then .next s else f s
  | .fault e => .fault e
  | .refused e => .refused e

/-- The same answer, a fault being recorded under another command's code: what a command records when the fault
comes from a command it is made of (R99). -/
def recordedAs (op : Code) (r : Result) : Result :=
  match r with
  | .next s => if s.fault then .next { s with faultOp := op } else .next s
  | .fault e => .fault e
  | .refused e => .refused e

/-- How often light `l` has advanced after `k` ticks from IDX = 0, CNT = ADV (R158). The subtraction stops at
zero, as the rule's `max(0, ..)` does. -/
def advances (k l : Nat) : Nat := 26 * (k / 104) + min 26 (k % 104 - 26 * l)

/-! ## Admission, as hypotheses -/

/-- The state admits every host command but CONSTRUCT: FAULT = 0, MODE = SETUP, CONSTRUCTED = 1, the encoder's
state being `d` (R100, R140). -/
def HostReady (s : State) (d : ChipDriver) : Prop := s.fault = false ∧ s.mode = .setup ∧ s.driver = some d

/-- The state admits CONSTRUCT: FAULT = 0, MODE = SETUP, CONSTRUCTED = 0 (R100). -/
def ConstructReady (s : State) : Prop := s.fault = false ∧ s.mode = .setup ∧ s.driver = none

/-- The state admits TICK: FAULT = 0, MODE = STEADY, CONSTRUCTED = 1, the encoder's state being `d`, the tables
`t` (R140). -/
def TickReady (s : State) (d : ChipDriver) (t : Luts) : Prop :=
  s.fault = false ∧ s.mode = .steady ∧ s.driver = some d ∧ s.lut = some t

/-! ## The buffer, as statements read it -/

/-- The 16-bit value of channel `ch`: `MemRead(offset(ch), 2)` (R77, R107). -/
def channel (d : ChipDriver) (ch : Nat) : Option Nat := memRead d.buf (offset d.cc ch) 2

/-- `a` is one of the two bytes of channel `ch` (R55). -/
def byteOfChannel (cc ch a : Nat) : Prop := a = offset cc ch ∨ a = offset cc ch + 1

/-- From `d` to `d'` the three channels of LED `i` came to hold `vr`, `vg`, `vb`, and nothing else of the encoder
changed: not CC, not the brightness, not a byte outside those three channels (R57, R107, R110). -/
structure LedStored (d d' : ChipDriver) (i vr vg vb : Nat) : Prop where
  cc    : d'.cc = d.cc
  bcR   : d'.bcR = d.bcR
  bcG   : d'.bcG = d.bcG
  bcB   : d'.bcB = d.bcB
  red   : channel d' (3 * i) = some vr
  green : channel d' (3 * i + 1) = some vg
  blue  : channel d' (3 * i + 2) = some vb
  other : ∀ a, (∀ j < 3, ¬ byteOfChannel d.cc (3 * i + j) a) → readByte d'.buf a = readByte d.buf a

/-- From `d` to `d'` no more of the encoder changed than the red and the green channel of LED `i`, which is what an
LED command that faults on a value can have written (R181): not CC, not the brightness, not the extent of the
buffer, not a byte outside those two channels. -/
structure LedPartlyStored (d d' : ChipDriver) (i : Nat) : Prop where
  cc        : d'.cc = d.cc
  bcR       : d'.bcR = d.bcR
  bcG       : d'.bcG = d.bcG
  bcB       : d'.bcB = d.bcB
  addresses : d'.buf.map Prod.fst = d.buf.map Prod.fst
  other     : ∀ a, (∀ j < 2, ¬ byteOfChannel d.cc (3 * i + j) a) → readByte d'.buf a = readByte d.buf a

/-- Light `l` holds the colour `c`, sent inverted: its three channels are `rep8(255 - component)`, which is
257 times `255 - component` (R142, R152). -/
def ShowsColor (d : ChipDriver) (l : Fin Config.nLights) (c : Color) : Prop :=
  channel d (3 * l.val) = some (257 * (255 - c.r.toNat)) ∧
  channel d (3 * l.val + 1) = some (257 * (255 - c.g.toNat)) ∧
  channel d (3 * l.val + 2) = some (257 * (255 - c.b.toNat))

/-- The 16-bit value a receiver reads for channel `ch` in a frame of `cc` channels (R77). -/
def frameChannel (cc : Nat) (f : Frame) (ch : Nat) : Option Nat :=
  match f[offset cc ch]?, f[offset cc ch + 1]? with
  | some hi, some lo => some (256 * hi.toNat + lo.toNat)
  | _, _ => none

/-- A frame shows light `l` in the colour `c` (R152). -/
def FrameShows (cc : Nat) (f : Frame) (l : Fin Config.nLights) (c : Color) : Prop :=
  frameChannel cc f (3 * l.val) = some (257 * (255 - c.r.toNat)) ∧
  frameChannel cc f (3 * l.val + 1) = some (257 * (255 - c.g.toNat)) ∧
  frameChannel cc f (3 * l.val + 2) = some (257 * (255 - c.b.toNat))

/-- The LED command of each operand form (R78, R80). -/
def ledInstr : OperandForm → Int → Int → Int → Int → Instr
  | .direct16 => .setLed16
  | .replicated8 => .setLed8
  | .inverted16 => .ledsSet16
  | .inverted8 => .ledsSet8

/-! ## The invariant -/

/-- The encoder's state is as CONSTRUCT makes it and every command keeps it: CC a positive multiple of 12, the
buffer's bytes exactly 0..BUF_LEN-1, and the header the one of the brightness registers (R23, R25, R26). -/
structure DriverInv (d : ChipDriver) : Prop where
  ccPos      : 0 < d.cc
  ccMultiple : d.cc % 12 = 0
  addresses  : d.buf.map Prod.fst = List.range (bufLen d.cc)
  header     : memRead d.buf 0 4 = some (hdr d.bcR d.bcG d.bcB)

/-- What holds in every state a run reaches. -/
structure Inv (s : State) : Prop where
  /-- R23, R25, R26. -/
  driver    : ∀ d, s.driver = some d → DriverInv d
  /-- Every frame of a run has the same length, that of the buffer (R76, R77). -/
  frames    : ∀ d, s.driver = some d → ∀ f ∈ s.frames, f.length = bufLen d.cc
  /-- Nothing has been transmitted before CONSTRUCT (R178, R190). -/
  noFrames  : s.driver = none → s.frames = []
  /-- R30. -/
  phase     : ∀ l : Fin Config.nLights, s.phase[l].toNat < Config.phaseMod
  /-- CNT is in 1..ADV between commands (R32, R153). -/
  count     : 1 ≤ s.cnt.toNat ∧ s.cnt.toNat ≤ Config.adv.toNat
  /-- The tables, once built, are COLOR's values (R69, R144). -/
  tables    : ∀ t, s.lut = some t → t = buildTables Config.color
  /-- MODE = STEADY implies CONSTRUCTED = 1 and LUT_VALID = 1 (R140). -/
  steady    : s.mode = .steady → s.constructed = true ∧ s.lutValid = true
  /-- Once ARM has succeeded the block never faults (R174). -/
  noFault   : s.mode = .steady → s.fault = false
  /-- The fault record is that of no fault exactly while FAULT = 0 (R36). -/
  record    : s.fault = false ↔ s.faultCode = .none

end Sys2Proof
end

