-- ==== Sys2Proof/WellFormed.lean ====
section
/-! DEFINITION. Well-formed commands: the part of each command's contract that the operands alone decide
(40_chipdriver.md R101, R105, R110, R114, R121, R130, R134). A command outside it still decodes and still
has a meaning: it faults (entry 27). The upper bound of a channel or LED number is CC's, so it stands in
the meanings, not here. -/

namespace Sys2Proof

/-- `v` is in `0 .. max`. -/
def inRange (max v : Int) : Bool := decide (0 ≤ v) && decide (v ≤ max)

/-- The three components of an LED command are in range. -/
def componentsInRange (max r g b : Int) : Bool := inRange max r && inRange max g && inRange max b

/-- The operands keep the part of the command's contract that does not speak of the state. -/
def Instr.wellFormed : Instr → Bool
  | .construct _ cc => decide (0 < cc) && decide (cc % 12 = 0)
  | .setChannel16 ch v16 => decide (0 ≤ ch) && inRange 65535 v16
  | .setLed16 i r g b => decide (0 ≤ i) && componentsInRange 65535 r g b
  | .setLed8 i r g b => decide (0 ≤ i) && componentsInRange 255 r g b
  | .setBrightness r g b => componentsInRange 127 r g b
  | .write => true
  | .ledsSet16 i r g b => decide (0 ≤ i) && componentsInRange 65535 r g b
  | .ledsSet8 i r g b => decide (0 ≤ i) && componentsInRange 255 r g b
  | .fadeIn => true
  | .buildLut => true
  | .arm => true
  | .tick => true

end Sys2Proof
end

