-- ==== Sys2Proof/Certificates/Slice0/Obligations.lean ====
section
/-! DEFINITION. The statements for the provers, in the order of OBLIGATIONS.json. "The spec's own decision D<n>" marks a
clause that the spec decides and the source document does not state; "entry <n>" a choice of the model. -/

open Sys2Proof Sys2Proof.Machine

/-! ## Reset and delivery -/

/-- R190: the reset values. Those of PHASE, IDX and CNT are the spec's own decisions D12 and D13, and power-on
as the reset is D31. -/
def Obligations.ResetPutsEveryElementAtItsValue : Prop :=
  State.reset.driver = none ∧ State.reset.constructed = false ∧
  State.reset.phase = #v[0#9, 37#9, 74#9, 180#9] ∧ State.reset.idx = 0 ∧ State.reset.cnt = 26#5 ∧
  State.reset.lut = none ∧ State.reset.lutValid = false ∧ State.reset.mode = .setup ∧
  State.reset.fault = false ∧ State.reset.faultCode = .none ∧ State.reset.faultOp = 0 ∧ State.reset.frames = []

/-- The invariant holds at reset (R30, R32, R36, R190). -/
def Obligations.ResetMeetsTheInvariant : Prop := Inv State.reset

/-- A step on a waiting transaction that decodes to `i` is exec of `i` on the state with that transaction taken
(R79, R82; the inbox is the model's own, entry 2). -/
def Obligations.StepRunsTheDecodedCommand : Prop :=
  ∀ (s : State) (t : Transaction) (rest : List Input) (i : Instr),
    s.inbox = .command t :: rest → s.fault = false → decode t = .ok i →
    step s = exec i { s with inbox := rest }

/-- Every other step: FAULT is checked before the code and the operand count (R177, R178); power-on is the
reset (R190); with nothing waiting the block waits (R191; that waiting is a step is the model's choice, entry 2). -/
def Obligations.StepWaitsResetsRefusesOrStops : Prop :=
  ∀ s : State,
    (∀ t rest, s.inbox = .command t :: rest → s.fault = true → step s = .fault .faulted) ∧
    (∀ t rest, s.inbox = .command t :: rest → s.fault = false → decode t = .error .undefinedOp →
      step s = .refused .undefinedOp) ∧
    (∀ t rest, s.inbox = .command t :: rest → s.fault = false → decode t = .error .badArity →
      step s = .refused .badArity) ∧
    (∀ rest, s.inbox = .powerOn :: rest → step s = .next { State.reset with inbox := rest }) ∧
    (s.inbox = [] → s.fault = false → step s = .next s) ∧
    (s.inbox = [] → s.fault = true → step s = .fault .faulted)

/-- A step on an opcode-table word runs that word's command and changes nothing else (the reading of a table
word as a transaction is the model's choice, entry 17). -/
def Obligations.StepRunsAnOpcodeTableWord : Prop :=
  ∀ (s : State) (nbits w : Nat) (i : Instr), s.fault = false → decodeTableWord nbits w = some i →
    step (s.withFetchWord nbits w) = exec i s

/-! ## The command interface -/

/-- Transactions written out from the command table, R80 (the codes are the spec's own decision D2). -/
def Obligations.WrittenOutTransactionsDecode : Prop :=
  decode ⟨0b0000#4, [0, 12]⟩ = .ok (.construct 0 12) ∧
  decode ⟨0b0001#4, [11, 0xABCD]⟩ = .ok (.setChannel16 11 0xABCD) ∧
  decode ⟨0b0111#4, [7, 1, 2, 3]⟩ = .ok (.ledsSet8 7 1 2 3) ∧
  decode ⟨0b1011#4, []⟩ = .ok .tick ∧
  decode ⟨0b1100#4, []⟩ = .error .undefinedOp ∧
  decode ⟨0b0001#4, [0]⟩ = .error .badArity

/-- Decoding and encoding are inverse, for every command and every operand, and in both directions: no
transaction but `encode i` decodes to `i` (R79, R80, R82; D2). -/
def Obligations.DecodeInvertsEncodeBothWays : Prop :=
  ∀ (t : Transaction) (i : Instr), decode t = .ok i ↔ t = encode i

/-- What does not decode is rejected by name, and exactly then: a reserved code 0xC..0xF is undefined whatever
its operands, and an assigned code with another operand count than its row's has bad arity (R81; D2). -/
def Obligations.ReservedCodesAndWrongCountsAreRejected : Prop :=
  ∀ t : Transaction,
    (decode t = .error .undefinedOp ↔ 0xC ≤ t.op.toNat) ∧
    (decode t = .error .badArity ↔ t.op.toNat < 0xC ∧ operandCount t.op ≠ some t.args.length)

/-! ## The wire format -/

/-- R17, the helper functions, as arithmetic. -/
def Obligations.HelperFunctionsAreTheSpecs : Prop :=
  (∀ cc ch : Nat, ch < cc → (offset cc ch : Int) = 4 + 2 * ((cc : Int) - ch - 1)) ∧
  (∀ v, v ≤ 255 → rep8 v = 257 * v) ∧
  (∀ v, v ≤ 255 → (inv8 v : Int) = 255 - v) ∧
  (∀ v, v ≤ 65535 → (inv16 v : Int) = 65535 - v) ∧
  (∀ r g b : Brightness, hdr r g b =
    (Config.magic5.toNat * 2 ^ 28 + Config.cfg7.toNat * 2 ^ 21 + r.toNat * 2 ^ 14 + g.toNat * 2 ^ 7 + b.toNat)
      % 2 ^ 32)

/-- R73: the four header bytes in terms of TOP11, which is all that reaches the wire of MAGIC5 and CFG7 (R74).
Which bit the truncation drops is the spec's own decision D4. -/
def Obligations.HeaderBytesAreTheSpecs : Prop :=
  (∀ (r g b : Brightness) (m : Memory),
    let m' := memWrite 0 4 (hdr r g b) m
    (readByte m' 0).map (·.toNat) = some (top11 / 8) ∧
    (readByte m' 1).map (·.toNat) = some (top11 % 8 * 32 + r.toNat / 4) ∧
    (readByte m' 2).map (·.toNat) = some (r.toNat % 4 * 64 + g.toNat / 2) ∧
    (readByte m' 3).map (·.toNat) = some (g.toNat % 2 * 128 + b.toNat)) ∧
  ∀ (m m' : BitVec 5) (c c' : BitVec 7) (r g b : Brightness),
    m.toNat % 16 * 128 + c.toNat = m'.toNat % 16 * 128 + c'.toNat → hdrOf m c r g b = hdrOf m' c' r g b

/-- R55, R56: every channel's two bytes lie at an even address after the header and inside the buffer, in descending
channel order: channel CC-1 first, channel 0 last, and each channel's bytes right before those of the channel
one below it; two channels share no byte; every data byte belongs to a channel. -/
def Obligations.ChannelsTileTheDataBytes : Prop :=
  ∀ cc : Nat, 0 < cc →
    (∀ ch < cc, 4 ≤ offset cc ch ∧ offset cc ch % 2 = 0 ∧ offset cc ch + 2 ≤ bufLen cc) ∧
    offset cc (cc - 1) = 4 ∧ offset cc 0 = bufLen cc - 2 ∧
    (∀ ch, ch + 1 < cc → offset cc (ch + 1) + 2 = offset cc ch) ∧
    (∀ ch ch' a, ch < cc → ch' < cc → byteOfChannel cc ch a → byteOfChannel cc ch' a → ch = ch') ∧
    (∀ a, 4 ≤ a → a < bufLen cc → ∃ ch < cc, byteOfChannel cc ch a)

/-- R76, R77, R72: from the frame of a buffer and CC alone a receiver reads the header word, with its three
brightness fields, and the value of every channel; and the frame's length is `4 + 2*CC`. -/
def Obligations.FrameCarriesHeaderAndEveryChannel : Prop :=
  ∀ d : ChipDriver, DriverInv d →
    (frameOf d.buf).length = 4 + 2 * d.cc ∧
    (∃ b0 b1 b2 b3 : Byte, (frameOf d.buf).take 4 = [b0, b1, b2, b3] ∧
      let h := b0.toNat * 2 ^ 24 + b1.toNat * 2 ^ 16 + b2.toNat * 2 ^ 8 + b3.toNat
      h = hdr d.bcR d.bcG d.bcB ∧ h / 2 ^ 21 = top11 ∧ h / 2 ^ 14 % 128 = d.bcR.toNat ∧
      h / 2 ^ 7 % 128 = d.bcG.toNat ∧ h % 128 = d.bcB.toNat) ∧
    ∀ ch < d.cc, ∃ v < 65536, channel d ch = some v ∧ frameChannel d.cc (frameOf d.buf) ch = some v

/-! ## CONSTRUCT -/

/-- R101: a channel count that is a positive multiple of 12 creates the encoder, whatever the pin; no frame, and
nothing else of the state changes. The default brightness 0x7F is C1/D6, the zero data bytes D7. -/
def Obligations.ConstructCreatesTheEncoder : Prop :=
  ∀ (pin cc : Int) (s : State), ConstructReady s → 0 < cc → cc % 12 = 0 →
    ∃ d : ChipDriver, exec (.construct pin cc) s = .next { s with driver := some d } ∧
      d.cc = cc.toNat ∧ d.bcR = 0x7F#7 ∧ d.bcG = 0x7F#7 ∧ d.bcB = 0x7F#7 ∧
      d.buf.map Prod.fst = List.range (4 + 2 * cc.toNat) ∧
      memRead d.buf 0 4 = some (hdr 0x7F#7 0x7F#7 0x7F#7) ∧
      ∀ a, 4 ≤ a → a < 4 + 2 * cc.toNat → readByte d.buf a = some 0x00#8

/-- R102: any other channel count faults and writes nothing but the fault record (rejecting zero and negative
multiples is C5/D8). -/
def Obligations.ConstructFaultsOnABadCount : Prop :=
  ∀ (pin cc : Int) (s : State), ConstructReady s → cc ≤ 0 ∨ cc % 12 ≠ 0 →
    exec (.construct pin cc) s =
      .next { s with fault := true, faultCode := .channelCount, faultOp := 0x0#4 }

/-! ## SET_CHANNEL_16 -/

/-- R107: the channel reads back as the value, big-endian at its offset, and every byte outside its two, every
other channel among them, is unchanged; nothing else of the state changes. -/
def Obligations.SetChannelStoresOneChannelOnly : Prop :=
  ∀ (ch v16 : Int) (s : State) (d : ChipDriver), HostReady s d → 0 ≤ ch → ch < d.cc → 0 ≤ v16 → v16 ≤ 65535 →
    ∃ d' : ChipDriver, exec (.setChannel16 ch v16) s = .next { s with driver := some d' } ∧
      d'.cc = d.cc ∧ d'.bcR = d.bcR ∧ d'.bcG = d.bcG ∧ d'.bcB = d.bcB ∧
      memRead d'.buf (offset d.cc ch.toNat) 2 = some v16.toNat ∧
      readByte d'.buf (offset d.cc ch.toNat) = some (BitVec.ofNat 8 (v16.toNat / 256)) ∧
      readByte d'.buf (offset d.cc ch.toNat + 1) = some (BitVec.ofNat 8 (v16.toNat % 256)) ∧
      (∀ a, a ≠ offset d.cc ch.toNat → a ≠ offset d.cc ch.toNat + 1 → readByte d'.buf a = readByte d.buf a) ∧
      ∀ c < d.cc, c ≠ ch.toNat → channel d' c = channel d c

/-- R108: with CC = 12, `SET_CHANNEL_16 11, 0xABCD` gives BUF[4] = 0xAB and BUF[5] = 0xCD. -/
def Obligations.SetChannelElevenFillsBytesFourAndFive : Prop :=
  ∀ (s : State) (d : ChipDriver), HostReady s d → d.cc = 12 →
    ∃ d' : ChipDriver, exec (.setChannel16 11 0xABCD) s = .next { s with driver := some d' } ∧
      readByte d'.buf 4 = some 0xAB#8 ∧ readByte d'.buf 5 = some 0xCD#8

/-- R106: a channel number outside 0..CC-1 faults before the value is looked at, a value outside 0..65535 faults
on a good channel, and either writes nothing but the fault record (the order is D10, negatives D3). -/
def Obligations.SetChannelFaultsWriteNothing : Prop :=
  ∀ (ch v16 : Int) (s : State) (d : ChipDriver), HostReady s d →
    (ch < 0 ∨ ch ≥ d.cc → exec (.setChannel16 ch v16) s =
      .next { s with fault := true, faultCode := .channelIndex, faultOp := 0x1#4 }) ∧
    (0 ≤ ch ∧ ch < d.cc → v16 < 0 ∨ v16 > 65535 → exec (.setChannel16 ch v16) s =
      .next { s with fault := true, faultCode := .pwmValue, faultOp := 0x1#4 })

/-! ## The LED commands -/

/-- R110: SET_LED_16 is SET_CHANNEL_16 of channels 3i, 3i+1 and 3i+2 in this order, ending at the first fault,
which is recorded as its own (R99), for all operands. -/
def Obligations.SetLed16IsThreeChannelWrites : Prop :=
  ∀ (i r g b : Int) (s : State) (d : ChipDriver), HostReady s d →
    exec (.setLed16 i r g b) s =
      recordedAs 0x2#4
        (unlessFaulted
          (unlessFaulted (exec (.setChannel16 (3 * i) r) s) (exec (.setChannel16 (3 * i + 1) g)))
          (exec (.setChannel16 (3 * i + 2) b)))

/-- R110: on operands in range SET_LED_16 completes, its three channels hold the three values, and nothing else of
the encoder or of the state changes. -/
def Obligations.SetLed16StoresTheValues : Prop :=
  ∀ (i r g b : Int) (s : State) (d : ChipDriver), HostReady s d → 0 ≤ i → 3 * i + 2 < d.cc →
    componentsInRange 65535 r g b = true →
    ∃ d' : ChipDriver, exec (.setLed16 i r g b) s = .next { s with driver := some d' } ∧
      LedStored d d' i.toNat r.toNat g.toNat b.toNat

/-- R114: SET_LED_8 stores each value replicated into both bytes, 257 times the value. -/
def Obligations.SetLed8StoresReplicatedValues : Prop :=
  ∀ (i r g b : Int) (s : State) (d : ChipDriver), HostReady s d → 0 ≤ i → 3 * i + 2 < d.cc →
    componentsInRange 255 r g b = true →
    ∃ d' : ChipDriver, exec (.setLed8 i r g b) s = .next { s with driver := some d' } ∧
      LedStored d d' i.toNat (257 * r.toNat) (257 * g.toNat) (257 * b.toNat)

/-- R130: LEDS_SET_16 stores each value inverted, `65535 - v`, and transmits nothing (the wrapper's operations are
D18). -/
def Obligations.LedsSet16StoresInvertedValues : Prop :=
  ∀ (i r g b : Int) (s : State) (d : ChipDriver), HostReady s d → 0 ≤ i → 3 * i + 2 < d.cc →
    componentsInRange 65535 r g b = true →
    ∃ d' : ChipDriver, exec (.ledsSet16 i r g b) s = .next { s with driver := some d' } ∧
      LedStored d d' i.toNat (65535 - r.toNat) (65535 - g.toNat) (65535 - b.toNat)

/-- R134: LEDS_SET_8 stores each value inverted and replicated, `257 * (255 - v)`, and transmits nothing (the
wrapper's operations are D18). -/
def Obligations.LedsSet8StoresInvertedReplicatedValues : Prop :=
  ∀ (i r g b : Int) (s : State) (d : ChipDriver), HostReady s d → 0 ≤ i → 3 * i + 2 < d.cc →
    componentsInRange 255 r g b = true →
    ∃ d' : ChipDriver, exec (.ledsSet8 i r g b) s = .next { s with driver := some d' } ∧
      LedStored d d' i.toNat (257 * (255 - r.toNat)) (257 * (255 - g.toNat)) (257 * (255 - b.toNat))

/-- R111, R115, R131, R135, R181: where the four LED commands (SET_LED_16, SET_LED_8, LEDS_SET_16, LEDS_SET_8)
fault, and what stays written: nothing on a bad index or a bad red value, the red channel on a bad green
value, red and green on a bad blue value (partial writes are D9, the order D10, negatives D3). The premise is
the part of the invariant that says CC is a multiple of 12. -/
def Obligations.LedFaultsKeepTheEarlierChannels : Prop :=
  ∀ (form : OperandForm) (i r g b : Int) (s : State) (d : ChipDriver), HostReady s d → d.cc % 12 = 0 →
    let max : Int := match form with
      | .direct16 | .inverted16 => 65535
      | .replicated8 | .inverted8 => 255
    let faults (code : FaultCode) (d' : ChipDriver) : Prop :=
      exec (ledInstr form i r g b) s = .next { s with
        driver := some d', fault := true, faultCode := code, faultOp := codeOf (ledInstr form i r g b) }
    let vr := channelValue form r.toNat
    let vg := channelValue form g.toNat
    (i < 0 ∨ 3 * i + 2 ≥ d.cc → faults .channelIndex d) ∧
    (0 ≤ i → 3 * i + 2 < d.cc →
      (inRange max r = false → faults .pwmValue d) ∧
      (inRange max r = true → inRange max g = false →
        faults .pwmValue (putChannel (3 * i.toNat) vr d)) ∧
      (inRange max r = true → inRange max g = true → inRange max b = false →
        faults .pwmValue (putChannel (3 * i.toNat + 1) vg (putChannel (3 * i.toNat) vr d))))

/-- R116: on values 0..255, for every index and in every state, SET_LED_8 answers what SET_LED_16 of the
replicated values answers: the same state, the same fault, the same refusal. The command code recorded with a
fault is each command's own (R99; entry 25). -/
def Obligations.SetLed8IsSetLed16OfReplicatedValues : Prop :=
  ∀ (i : Int) (r g b : Nat) (s : State), r ≤ 255 → g ≤ 255 → b ≤ 255 →
    exec (.setLed8 i r g b) s =
      recordedAs 0x3#4 (exec (.setLed16 i (r <<< 8 ||| r : Nat) (g <<< 8 ||| g : Nat) (b <<< 8 ||| b : Nat)) s)

/-- R137: inverting at 8 bits or at 16 bits sends the same bytes. -/
def Obligations.InversionCommutesWithReplication : Prop :=
  (∀ v, v ≤ 255 → rep8 (inv8 v) = inv16 (rep8 v) ∧ rep8 (inv8 v) = 257 * (255 - v)) ∧
  ∀ (i : Int) (r g b : Nat) (s : State), r ≤ 255 → g ≤ 255 → b ≤ 255 →
    exec (.ledsSet8 i r g b) s = recordedAs 0x7#4 (exec (.ledsSet16 i (rep8 r) (rep8 g) (rep8 b)) s)

/-! ## SET_BRIGHTNESS -/

/-- R121: on values 0..127 the three registers and the header take them, no channel data byte is touched, and
nothing else of the state changes; otherwise nothing but the fault record is written (checking all three before
any write is D10, negatives D3). -/
def Obligations.SetBrightnessRewritesTheHeader : Prop :=
  ∀ (r7 g7 b7 : Int) (s : State) (d : ChipDriver), HostReady s d →
    (componentsInRange 127 r7 g7 b7 = true →
      ∃ d' : ChipDriver, exec (.setBrightness r7 g7 b7) s = .next { s with driver := some d' } ∧
        d'.cc = d.cc ∧ (d'.bcR.toNat : Int) = r7 ∧ (d'.bcG.toNat : Int) = g7 ∧ (d'.bcB.toNat : Int) = b7 ∧
        memRead d'.buf 0 4 = some (hdr d'.bcR d'.bcG d'.bcB) ∧
        ∀ a, 4 ≤ a → readByte d'.buf a = readByte d.buf a) ∧
    (componentsInRange 127 r7 g7 b7 = false →
      exec (.setBrightness r7 g7 b7) s =
        .next { s with fault := true, faultCode := .brightnessValue, faultOp := 0x4#4 })

/-- R122: setting the brightness to what it is changes nothing, whatever the channel data; so 0x7F, 0x7F, 0x7F on
a fresh driver reproduces the header CONSTRUCT wrote. -/
def Obligations.SettingTheSameBrightnessChangesNothing : Prop :=
  (∀ (s : State) (d : ChipDriver), HostReady s d → DriverInv d →
    exec (.setBrightness d.bcR.toNat d.bcG.toNat d.bcB.toNat) s = .next s) ∧
  ∀ (pin cc : Int) (s t : State), ConstructReady s → 0 < cc → cc % 12 = 0 →
    exec (.construct pin cc) s = .next t → exec (.setBrightness 0x7F 0x7F 0x7F) t = .next t

/-! ## WRITE -/

/-- R125: WRITE, which takes no operand and has the code 0x5, completes, appends to FRAMES one frame of BUF_LEN bytes,
byte k of it being BUF[k], and writes no state element. The premise on the buffer is a part of the invariant. -/
def Obligations.WriteTransmitsTheWholeBuffer : Prop :=
  encode .write = ⟨0x5#4, []⟩ ∧ ∀ (s : State) (d : ChipDriver), HostReady s d → d.buf.map Prod.fst = List.range (bufLen d.cc) →
    ∃ f : Frame, exec .write s = .next { s with frames := s.frames ++ [f] } ∧ f.length = bufLen d.cc ∧
      ∀ k < bufLen d.cc, f[k]? = readByte d.buf k

/-- R62: two WRITEs with no command between them emit identical frames. -/
def Obligations.TwoWritesEmitIdenticalFrames : Prop :=
  ∀ (s : State) (d : ChipDriver), HostReady s d →
    ∃ (f : Frame) (s₁ s₂ : State), exec .write s = .next s₁ ∧ exec .write s₁ = .next s₂ ∧
      s₂ = { s with frames := s.frames ++ [f, f] }

/-! ## FADE_IN -/

/-- R141, R142: on a constructed encoder FADE_IN completes without a fault. It emits 1020 frames in PER_LIGHT mode and
255 in PER_LEVEL mode, and 255 pauses of FADE_DELAY, one after the frames of each level; each light ends in its colour at level 254, inverted; no other byte, no
register of the encoder and nothing else of the state changes (the mode is the parameter of D17; the pauses'
record is the model's own, entry 16). -/
def Obligations.FadeInEndsAtLevel254 : Prop :=
  ∀ (s : State) (d : ChipDriver), HostReady s d → DriverInv d →
    ∃ (d' : ChipDriver) (fs : List Frame) (ps : List Pause),
      exec .fadeIn s = .next { s with
        driver := some d', frames := s.frames ++ fs, pauses := s.pauses ++ ps } ∧
      fs.length = (match Config.fadeWriteMode with | .perLight => 1020 | .perLevel => 255) ∧
      ps.length = 255 ∧
      (∀ lvl < 255, ps[lvl]? = some ⟨s.frames.length +
        (match Config.fadeWriteMode with | .perLight => 4 * (lvl + 1) | .perLevel => lvl + 1), Config.fadeDelay⟩) ∧
      d'.cc = d.cc ∧ d'.bcR = d.bcR ∧ d'.bcG = d.bcG ∧ d'.bcB = d.bcB ∧
      (∀ l : Fin Config.nLights, ShowsColor d' l (Config.color s.phase[l] 255#8 254#8)) ∧
      ∀ a, (∀ ch < 12, ¬ byteOfChannel d.cc ch a) → readByte d'.buf a = readByte d.buf a

/-- R141: what each frame of the fade carries. In PER_LIGHT mode frame `4*lvl + l` shows the lights up to `l` at
level `lvl` and the later ones at the level before (at level 0: as they were); in PER_LEVEL mode frame `lvl`
shows all four at level `lvl`. Either way every byte outside channels 0..11 is as before the command. -/
def Obligations.FadeInFramesRampLightByLight : Prop :=
  ∀ (s t : State) (d : ChipDriver), HostReady s d → DriverInv d → exec .fadeIn s = .next t →
    ∃ fs : List Frame, t.frames = s.frames ++ fs ∧
      (Config.fadeWriteMode = .perLight → ∀ lvl < 255, ∀ l : Fin Config.nLights, ∃ f : Frame,
        fs[4 * lvl + l.val]? = some f ∧
        (∀ l' : Fin Config.nLights, l'.val ≤ l.val →
          FrameShows d.cc f l' (Config.color s.phase[l'] 255#8 (BitVec.ofNat 8 lvl))) ∧
        (∀ l' : Fin Config.nLights, l.val < l'.val → 0 < lvl →
          FrameShows d.cc f l' (Config.color s.phase[l'] 255#8 (BitVec.ofNat 8 (lvl - 1)))) ∧
        (∀ l' : Fin Config.nLights, l.val < l'.val → lvl = 0 →
          ∀ j < 3, frameChannel d.cc f (3 * l'.val + j) = channel d (3 * l'.val + j)) ∧
        ∀ a, (∀ ch < 12, ¬ byteOfChannel d.cc ch a) → f[a]? = readByte d.buf a) ∧
      (Config.fadeWriteMode = .perLevel → ∀ lvl < 255, ∃ f : Frame, fs[lvl]? = some f ∧
        (∀ l : Fin Config.nLights,
          FrameShows d.cc f l (Config.color s.phase[l] 255#8 (BitVec.ofNat 8 lvl))) ∧
        ∀ a, (∀ ch < 12, ¬ byteOfChannel d.cc ch a) → f[a]? = readByte d.buf a)

/-! ## BUILD_LUT and ARM -/

/-- R144, R145: BUILD_LUT completes, every entry of the three tables is COLOR's at full saturation and value,
LUT_VALID is 1, nothing else changes, and a second BUILD_LUT changes nothing. -/
def Obligations.BuildLutFillsTheTables : Prop :=
  ∀ (s : State) (d : ChipDriver), HostReady s d →
    ∃ t : Luts, exec .buildLut s = .next { s with lut := some t } ∧
      (∀ a : Fin Config.lutLen,
        t.r[a] = (Config.color (BitVec.ofNat 9 a.val) 255#8 255#8).r ∧
        t.g[a] = (Config.color (BitVec.ofNat 9 a.val) 255#8 255#8).g ∧
        t.b[a] = (Config.color (BitVec.ofNat 9 a.val) 255#8 255#8).b) ∧
      exec .buildLut { s with lut := some t } = .next { s with lut := some t }

/-- R146: ARM with the tables built completes and makes MODE STEADY, and nothing else changes; with LUT_VALID = 0
it is refused (the refusal is D19). -/
def Obligations.ArmEntersSteadyOnceTablesAreBuilt : Prop :=
  ∀ (s : State) (d : ChipDriver), HostReady s d →
    (s.lutValid = true → exec .arm s = .next { s with mode := .steady }) ∧
    (s.lutValid = false → exec .arm s = .refused .lutNotBuilt)

/-! ## TICK -/

/-- R151, R152, R153: TICK completes. With `l` = IDX and `p` = PHASE[l] before it: light `l`'s channels take the
table colour at `p`, inverted; one frame is emitted, of the buffer as it then is; PHASE[l] becomes
`(p + 1) mod 360`; CNT is decremented, and when that makes it zero IDX moves on by one modulo 4 and CNT is 26
again; nothing else changes (that the tick inverts is D15). The premises are parts of the invariant. -/
def Obligations.TickRendersThenAdvances : Prop :=
  ∀ (s : State) (d : ChipDriver) (t : Luts), TickReady s d t → 12 ≤ d.cc →
    ∀ hp : s.phase[s.idx].toNat < 360,
    ∃ d' : ChipDriver, exec .tick s = .next { s with
        driver := some d',
        frames := s.frames ++ [frameOf d'.buf],
        phase := s.phase.set s.idx (BitVec.ofNat 9 ((s.phase[s.idx].toNat + 1) % 360)),
        idx := if s.cnt = 1 then s.idx + 1 else s.idx,
        cnt := if s.cnt = 1 then 26 else s.cnt - 1 } ∧
      LedStored d d' s.idx.val
        (257 * (255 - (t.r[s.phase[s.idx].toNat]'hp).toNat))
        (257 * (255 - (t.g[s.phase[s.idx].toNat]'hp).toNat))
        (257 * (255 - (t.b[s.phase[s.idx].toNat]'hp).toNat))

/-- R156: a tick does not refresh the lights that are not advancing. Every channel but the advancing light's three
keeps its value, and the frame re-sends it unchanged. -/
def Obligations.TickLeavesTheOtherLights : Prop :=
  ∀ (s : State) (d : ChipDriver) (t : Luts), TickReady s d t → DriverInv d → s.phase[s.idx].toNat < 360 →
    ∃ (u : State) (d' : ChipDriver) (f : Frame), exec .tick s = .next u ∧ u.driver = some d' ∧
      u.frames = s.frames ++ [f] ∧
      ∀ ch < d.cc, ch ≠ 3 * s.idx.val → ch ≠ 3 * s.idx.val + 1 → ch ≠ 3 * s.idx.val + 2 →
        channel d' ch = channel d ch ∧ frameChannel d.cc f ch = channel d ch

/-- R153, R158: after `k` ticks from IDX = 0 and CNT = 26, whatever the phases were: IDX is `floor(k/26) mod 4`,
CNT is `26 - (k mod 26)`, light `l` has advanced `26*floor(k/104) + min(26, max(0, (k mod 104) - 26*l))` times
modulo 360, `k` frames were emitted, and the block is still in STEADY with no fault (IDX = 0, CNT = 26 at the
start is D13, the countdown's order D14). -/
def Obligations.TicksRoundRobinForever : Prop :=
  ∀ (s : State), Inv s → s.mode = .steady → s.idx = 0 → s.cnt = 26 → ∀ k : Nat,
    ∃ u : State, runTicks k s = .next u ∧
      u.idx.val = k / 26 % 4 ∧ u.cnt.toNat = 26 - k % 26 ∧
      (∀ l : Fin Config.nLights, u.phase[l].toNat = (s.phase[l].toNat + advances k l.val) % 360) ∧
      u.frames.length = s.frames.length + k ∧ u.mode = .steady ∧ u.fault = false

/-! ## The whole machine -/

/-- Every step keeps the invariant: CC a positive multiple of 12 (R23), the buffer neither resized nor with a
header that is not the brightness registers' (R25, R26), every frame of the buffer's length (R77), every phase
in 0..359 (R30), CNT in 1..26 (R32), the tables COLOR's (R144), STEADY only constructed, with tables and
without a fault (R140, R174), and a fault code exactly while FAULT = 1 (R36). -/
def Obligations.EveryStepKeepsTheInvariant : Prop :=
  ∀ s t : State, Inv s → step s = .next t → Inv t

/-- R177, R178, R100, R140: which command is turned away in which state, in the order FAULT, MODE, CONSTRUCTED,
LUT_VALID (the refusals are D19). -/
def Obligations.AdmissionChecksInOrder : Prop :=
  ∀ (i : Instr) (s : State),
    (s.fault = true → exec i s = .fault .faulted) ∧
    (s.fault = false → s.mode = .steady → i ≠ .tick → exec i s = .refused .hostInSteady) ∧
    (s.fault = false → s.mode = .setup → i = .tick → exec i s = .refused .tickInSetup) ∧
    (s.fault = false → s.mode = .setup → s.constructed = false → i ≠ .tick → (∀ pin cc, i ≠ .construct pin cc) →
      exec i s = .refused .notConstructed) ∧
    (s.fault = false → s.mode = .steady → s.constructed = false → i = .tick →
      exec i s = .refused .notConstructed) ∧
    (s.fault = false → s.mode = .setup → s.constructed = true → (∃ pin cc, i = .construct pin cc) →
      exec i s = .refused .reconstruct) ∧
    (s.fault = false → s.mode = .setup → s.constructed = true → s.lutValid = false → i = .arm →
      exec i s = .refused .lutNotBuilt)

/-- R170, R193: in every state of the invariant with FAULT = 0, every command that the lifecycle admits answers a
next state: it completes or it takes a fault, whatever its operands. -/
def Obligations.AdmittedCommandsAlwaysAnswer : Prop :=
  ∀ (i : Instr) (s : State), Inv s → s.fault = false →
    (s.mode = .setup → s.constructed = false → (∃ pin cc, i = .construct pin cc) → ∃ t, exec i s = .next t) ∧
    (s.mode = .setup → s.constructed = true → i ≠ .tick → (∀ pin cc, i ≠ .construct pin cc) →
      (i = .arm → s.lutValid = true) → ∃ t, exec i s = .next t) ∧
    (s.mode = .steady → i = .tick → ∃ t, exec i s = .next t ∧ goodAnswer (exec i s) = true)

/-- R22 to R40, the "written by" column of R42: which commands write which element, for every command that
answers a next state, in every state. -/
def Obligations.OnlyTheNamedCommandsWriteEachElement : Prop :=
  ∀ (i : Instr) (s t : State), exec i s = .next t →
    ((∀ pin cc, i ≠ .construct pin cc) →
      t.constructed = s.constructed ∧ t.driver.map ChipDriver.cc = s.driver.map ChipDriver.cc) ∧
    ((∀ pin cc, i ≠ .construct pin cc) → (∀ r g b, i ≠ .setBrightness r g b) →
      t.driver.map ChipDriver.bcR = s.driver.map ChipDriver.bcR ∧
      t.driver.map ChipDriver.bcG = s.driver.map ChipDriver.bcG ∧
      t.driver.map ChipDriver.bcB = s.driver.map ChipDriver.bcB ∧
      ∀ a < 4, t.driver.map (fun d => readByte d.buf a) = s.driver.map (fun d => readByte d.buf a)) ∧
    ((∃ r g b, i = .setBrightness r g b) → ∀ a, 4 ≤ a →
      t.driver.map (fun d => readByte d.buf a) = s.driver.map (fun d => readByte d.buf a)) ∧
    (i = .write ∨ i = .buildLut ∨ i = .arm → t.driver = s.driver) ∧
    (i ≠ .tick → t.phase = s.phase ∧ t.idx = s.idx ∧ t.cnt = s.cnt) ∧
    (i ≠ .buildLut → t.lut = s.lut) ∧
    (i ≠ .arm → t.mode = s.mode) ∧
    (i ≠ .write → i ≠ .fadeIn → i ≠ .tick → t.frames = s.frames) ∧
    (i ≠ .fadeIn → t.pauses = s.pauses) ∧
    t.inbox = s.inbox ∧
    (t.fault = false → t.faultCode = s.faultCode ∧ t.faultOp = s.faultOp)

/-- R171, R172, R173, R181, R99: a command that takes a fault, from FAULT = 0, records its own code and a cause that
the table of R172 gives it, transmits nothing and changes no element but the record, save that an LED command with
a bad value may have written its LED's red and green channels and no other byte (LedFaultsKeepTheEarlierChannels
says what they then hold); WRITE, FADE_IN, BUILD_LUT, ARM and TICK take none (the record's form is D33, that a
fault stays is D9). -/
def Obligations.FaultEntryRecordsOnlyTheCommandAndCause : Prop :=
  ∀ (i : Instr) (s t : State), Inv s → exec i s = .next t → t.fault = true →
    let ledFault (led : Int) : Prop :=
      t.faultCode = .channelIndex ∧ t.driver = s.driver ∨
      t.faultCode = .pwmValue ∧ 0 ≤ led ∧
        ∃ d d', s.driver = some d ∧ t.driver = some d' ∧ LedPartlyStored d d' led.toNat
    s.fault = false ∧
    t = { s with driver := t.driver, fault := true, faultCode := t.faultCode, faultOp := codeOf i } ∧
    (match i with
      | .construct _ _ => t.faultCode = .channelCount ∧ t.driver = s.driver
      | .setBrightness _ _ _ => t.faultCode = .brightnessValue ∧ t.driver = s.driver
      | .setChannel16 _ _ => (t.faultCode = .channelIndex ∨ t.faultCode = .pwmValue) ∧ t.driver = s.driver
      | .setLed16 led _ _ _ => ledFault led
      | .setLed8 led _ _ _ => ledFault led
      | .ledsSet16 led _ _ _ => ledFault led
      | .ledsSet8 led _ _ _ => ledFault led
      | .write => False
      | .fadeIn => False
      | .buildLut => False
      | .arm => False
      | .tick => False)

/-- R36, R171, R180: once FAULT = 1 no command and no tick has a step, and the only step there is is a power-on,
which is the reset (power-on as an input is the model's choice, entry 3). -/
def Obligations.FaultedStateIsLeftByPowerOnOnly : Prop :=
  ∀ s : State, s.fault = true →
    (∀ i, exec i s = .fault .faulted) ∧
    ∀ t, step s = .next t → ∃ rest, s.inbox = .powerOn :: rest ∧ t = { State.reset with inbox := rest }

/-- R40, R65: a step that is no power-on only appends to FRAMES: the frames before it are the first frames after. -/
def Obligations.FramesAreAppendOnly : Prop :=
  ∀ s t : State, (∀ rest, s.inbox ≠ .powerOn :: rest) → step s = .next t → s.frames <+: t.frames

/-- R25: CONSTRUCT fixes the buffer's length at `4 + 2*CC`, there being no buffer before it, and no command changes
it afterwards. -/
def Obligations.BufferIsNeverResized : Prop :=
  (∀ (pin cc : Int) (s t : State), exec (.construct pin cc) s = .next t → s.driver = none ∧
    ∀ d, t.driver = some d → d.cc = cc.toNat ∧ d.buf.map Prod.fst = List.range (4 + 2 * d.cc)) ∧
  ∀ (i : Instr) (s t : State) (d : ChipDriver), s.driver = some d →
    d.buf.map Prod.fst = List.range (4 + 2 * d.cc) → exec i s = .next t →
    ∃ d', t.driver = some d' ∧ d'.cc = d.cc ∧ d'.buf.map Prod.fst = d.buf.map Prod.fst

/-- R174: once ARM has succeeded the block never faults again: from a STEADY state of the invariant every step
that is no power-on answers a STEADY state with FAULT = 0. -/
def Obligations.SteadyStateNeverFaults : Prop :=
  ∀ s t : State, Inv s → s.mode = .steady → (∀ rest, s.inbox ≠ .powerOn :: rest) → step s = .next t →
    t.mode = .steady ∧ t.fault = false
end

