-- ==== Sys2Proof/Laws/State.lean ====
section
/-! SUPPORT. One lemma per field per named update of the state and of a command's progress, each true by rfl. -/

namespace Sys2Proof.Machine

/-! ## Taking a fault -/

@[simp] theorem raiseFault_driver (op : Code) (code : FaultCode) (s : State) : (raiseFault op code s).driver = s.driver := rfl
@[simp] theorem raiseFault_phase (op : Code) (code : FaultCode) (s : State) : (raiseFault op code s).phase = s.phase := rfl
@[simp] theorem raiseFault_idx (op : Code) (code : FaultCode) (s : State) : (raiseFault op code s).idx = s.idx := rfl
@[simp] theorem raiseFault_cnt (op : Code) (code : FaultCode) (s : State) : (raiseFault op code s).cnt = s.cnt := rfl
@[simp] theorem raiseFault_lut (op : Code) (code : FaultCode) (s : State) : (raiseFault op code s).lut = s.lut := rfl
@[simp] theorem raiseFault_mode (op : Code) (code : FaultCode) (s : State) : (raiseFault op code s).mode = s.mode := rfl
@[simp] theorem raiseFault_fault (op : Code) (code : FaultCode) (s : State) : (raiseFault op code s).fault = true := rfl
@[simp] theorem raiseFault_faultCode (op : Code) (code : FaultCode) (s : State) : (raiseFault op code s).faultCode = code := rfl
@[simp] theorem raiseFault_faultOp (op : Code) (code : FaultCode) (s : State) : (raiseFault op code s).faultOp = op := rfl
@[simp] theorem raiseFault_frames (op : Code) (code : FaultCode) (s : State) : (raiseFault op code s).frames = s.frames := rfl
@[simp] theorem raiseFault_pauses (op : Code) (code : FaultCode) (s : State) : (raiseFault op code s).pauses = s.pauses := rfl
@[simp] theorem raiseFault_inbox (op : Code) (code : FaultCode) (s : State) : (raiseFault op code s).inbox = s.inbox := rfl

/-! ## Putting a command's effects into the state -/

@[simp] theorem commit_driver (s : State) (p : Progress) : (commit s p).driver = some p.driver := rfl
@[simp] theorem commit_phase (s : State) (p : Progress) : (commit s p).phase = s.phase := rfl
@[simp] theorem commit_idx (s : State) (p : Progress) : (commit s p).idx = s.idx := rfl
@[simp] theorem commit_cnt (s : State) (p : Progress) : (commit s p).cnt = s.cnt := rfl
@[simp] theorem commit_lut (s : State) (p : Progress) : (commit s p).lut = s.lut := rfl
@[simp] theorem commit_mode (s : State) (p : Progress) : (commit s p).mode = s.mode := rfl
@[simp] theorem commit_fault (s : State) (p : Progress) : (commit s p).fault = s.fault := rfl
@[simp] theorem commit_faultCode (s : State) (p : Progress) : (commit s p).faultCode = s.faultCode := rfl
@[simp] theorem commit_faultOp (s : State) (p : Progress) : (commit s p).faultOp = s.faultOp := rfl
@[simp] theorem commit_frames (s : State) (p : Progress) : (commit s p).frames = p.frames := rfl
@[simp] theorem commit_pauses (s : State) (p : Progress) : (commit s p).pauses = p.pauses := rfl
@[simp] theorem commit_inbox (s : State) (p : Progress) : (commit s p).inbox = s.inbox := rfl

/-! ## Advancing a phase -/

@[simp] theorem advancePhase_driver (s : State) : (advancePhase s).driver = s.driver := rfl
@[simp] theorem advancePhase_phase (s : State) : (advancePhase s).phase = s.phase.set s.idx (BitVec.ofNat 9 ((s.phase[s.idx].toNat + 1) % Config.phaseMod)) := rfl
@[simp] theorem advancePhase_idx (s : State) : (advancePhase s).idx = s.idx := rfl
@[simp] theorem advancePhase_cnt (s : State) : (advancePhase s).cnt = s.cnt := rfl
@[simp] theorem advancePhase_lut (s : State) : (advancePhase s).lut = s.lut := rfl
@[simp] theorem advancePhase_mode (s : State) : (advancePhase s).mode = s.mode := rfl
@[simp] theorem advancePhase_fault (s : State) : (advancePhase s).fault = s.fault := rfl
@[simp] theorem advancePhase_faultCode (s : State) : (advancePhase s).faultCode = s.faultCode := rfl
@[simp] theorem advancePhase_faultOp (s : State) : (advancePhase s).faultOp = s.faultOp := rfl
@[simp] theorem advancePhase_frames (s : State) : (advancePhase s).frames = s.frames := rfl
@[simp] theorem advancePhase_pauses (s : State) : (advancePhase s).pauses = s.pauses := rfl
@[simp] theorem advancePhase_inbox (s : State) : (advancePhase s).inbox = s.inbox := rfl

/-! ## Presenting a transaction -/

@[simp] theorem present_driver (t : Transaction) (s : State) : (present t s).driver = s.driver := rfl
@[simp] theorem present_phase (t : Transaction) (s : State) : (present t s).phase = s.phase := rfl
@[simp] theorem present_idx (t : Transaction) (s : State) : (present t s).idx = s.idx := rfl
@[simp] theorem present_cnt (t : Transaction) (s : State) : (present t s).cnt = s.cnt := rfl
@[simp] theorem present_lut (t : Transaction) (s : State) : (present t s).lut = s.lut := rfl
@[simp] theorem present_mode (t : Transaction) (s : State) : (present t s).mode = s.mode := rfl
@[simp] theorem present_fault (t : Transaction) (s : State) : (present t s).fault = s.fault := rfl
@[simp] theorem present_faultCode (t : Transaction) (s : State) : (present t s).faultCode = s.faultCode := rfl
@[simp] theorem present_faultOp (t : Transaction) (s : State) : (present t s).faultOp = s.faultOp := rfl
@[simp] theorem present_frames (t : Transaction) (s : State) : (present t s).frames = s.frames := rfl
@[simp] theorem present_pauses (t : Transaction) (s : State) : (present t s).pauses = s.pauses := rfl
@[simp] theorem present_inbox (t : Transaction) (s : State) : (present t s).inbox = .command t :: s.inbox := rfl

/-! ## Power-on -/

@[simp] theorem powerOn_driver (rest : List Input) : (powerOn rest).driver = State.reset.driver := rfl
@[simp] theorem powerOn_phase (rest : List Input) : (powerOn rest).phase = State.reset.phase := rfl
@[simp] theorem powerOn_idx (rest : List Input) : (powerOn rest).idx = State.reset.idx := rfl
@[simp] theorem powerOn_cnt (rest : List Input) : (powerOn rest).cnt = State.reset.cnt := rfl
@[simp] theorem powerOn_lut (rest : List Input) : (powerOn rest).lut = State.reset.lut := rfl
@[simp] theorem powerOn_mode (rest : List Input) : (powerOn rest).mode = State.reset.mode := rfl
@[simp] theorem powerOn_fault (rest : List Input) : (powerOn rest).fault = State.reset.fault := rfl
@[simp] theorem powerOn_faultCode (rest : List Input) : (powerOn rest).faultCode = State.reset.faultCode := rfl
@[simp] theorem powerOn_faultOp (rest : List Input) : (powerOn rest).faultOp = State.reset.faultOp := rfl
@[simp] theorem powerOn_frames (rest : List Input) : (powerOn rest).frames = State.reset.frames := rfl
@[simp] theorem powerOn_pauses (rest : List Input) : (powerOn rest).pauses = State.reset.pauses := rfl
@[simp] theorem powerOn_inbox (rest : List Input) : (powerOn rest).inbox = rest := rfl

/-! ## The start of a command -/

@[simp] theorem begin_driver (s : State) (d : ChipDriver) : (begin s d).driver = d := rfl
@[simp] theorem begin_frames (s : State) (d : ChipDriver) : (begin s d).frames = s.frames := rfl
@[simp] theorem begin_pauses (s : State) (d : ChipDriver) : (begin s d).pauses = s.pauses := rfl
@[simp] theorem begin_raised (s : State) (d : ChipDriver) : (begin s d).raised = none := rfl

/-! ## Emitting a frame -/

@[simp] theorem emitFrame_driver (p : Progress) : (emitFrame p).driver = p.driver := rfl
@[simp] theorem emitFrame_frames (p : Progress) : (emitFrame p).frames = p.frames ++ [frameOf p.driver.buf] := rfl
@[simp] theorem emitFrame_pauses (p : Progress) : (emitFrame p).pauses = p.pauses := rfl
@[simp] theorem emitFrame_raised (p : Progress) : (emitFrame p).raised = p.raised := rfl

/-! ## Emitting a pause -/

@[simp] theorem emitDelay_driver (n : Nat) (p : Progress) : (emitDelay n p).driver = p.driver := rfl
@[simp] theorem emitDelay_frames (n : Nat) (p : Progress) : (emitDelay n p).frames = p.frames := rfl
@[simp] theorem emitDelay_pauses (n : Nat) (p : Progress) : (emitDelay n p).pauses = p.pauses ++ [⟨p.frames.length, n⟩] := rfl
@[simp] theorem emitDelay_raised (n : Nat) (p : Progress) : (emitDelay n p).raised = p.raised := rfl

/-! ## Setting the brightness -/

@[simp] theorem setBrightness_cc (r g b : Brightness) (d : ChipDriver) :
    (setBrightness r g b d).cc = d.cc := rfl
@[simp] theorem setBrightness_bcR (r g b : Brightness) (d : ChipDriver) :
    (setBrightness r g b d).bcR = r := rfl
@[simp] theorem setBrightness_bcG (r g b : Brightness) (d : ChipDriver) :
    (setBrightness r g b d).bcG = g := rfl
@[simp] theorem setBrightness_bcB (r g b : Brightness) (d : ChipDriver) :
    (setBrightness r g b d).bcB = b := rfl
@[simp] theorem setBrightness_buf (r g b : Brightness) (d : ChipDriver) :
    (setBrightness r g b d).buf = memWrite 0 4 (hdr r g b) d.buf := rfl

/-! ## The countdown, which writes IDX and CNT only -/

@[simp] theorem countDown_driver (s : State) : (countDown s).driver = s.driver := by
  unfold countDown; dsimp only; split <;> rfl
@[simp] theorem countDown_phase (s : State) : (countDown s).phase = s.phase := by
  unfold countDown; dsimp only; split <;> rfl
@[simp] theorem countDown_lut (s : State) : (countDown s).lut = s.lut := by
  unfold countDown; dsimp only; split <;> rfl
@[simp] theorem countDown_mode (s : State) : (countDown s).mode = s.mode := by
  unfold countDown; dsimp only; split <;> rfl
@[simp] theorem countDown_fault (s : State) : (countDown s).fault = s.fault := by
  unfold countDown; dsimp only; split <;> rfl
@[simp] theorem countDown_faultCode (s : State) : (countDown s).faultCode = s.faultCode := by
  unfold countDown; dsimp only; split <;> rfl
@[simp] theorem countDown_faultOp (s : State) : (countDown s).faultOp = s.faultOp := by
  unfold countDown; dsimp only; split <;> rfl
@[simp] theorem countDown_frames (s : State) : (countDown s).frames = s.frames := by
  unfold countDown; dsimp only; split <;> rfl
@[simp] theorem countDown_pauses (s : State) : (countDown s).pauses = s.pauses := by
  unfold countDown; dsimp only; split <;> rfl
@[simp] theorem countDown_inbox (s : State) : (countDown s).inbox = s.inbox := by
  unfold countDown; dsimp only; split <;> rfl

/-! ## Going on after a primitive step -/

@[simp] theorem thenDo_of_none {p : Progress} (h : p.raised = none) (f : Progress → Progress) :
    thenDo p f = f p := by simp [thenDo, h]

@[simp] theorem thenDo_of_some {p : Progress} {c : FaultCode} (h : p.raised = some c) (f : Progress → Progress) :
    thenDo p f = p := by simp [thenDo, h]

@[simp] theorem finish_of_none {p : Progress} (h : p.raised = none) (op : Code) (s : State) (after : State → State) :
    finish op s p after = after (commit s p) := by simp [finish, h]

@[simp] theorem finish_of_some {p : Progress} {c : FaultCode} (h : p.raised = some c) (op : Code) (s : State)
    (after : State → State) : finish op s p after = raiseFault op c (commit s p) := by simp [finish, h]

end Sys2Proof.Machine
end

