-- ==== Sys2Proof/Laws/Admission.lean ====
section
/-! SUPPORT. Everything the admission checks can answer. -/

namespace Sys2Proof.Machine

theorem admitHost_of_ready {s : State} {d : ChipDriver} (h : HostReady s d) (body : ChipDriver → Result) :
    admitHost s body = body d := by
  obtain ⟨hf, hm, hd⟩ := h
  simp [admitHost, hf, hm, hd]

theorem admitConstruct_of_ready {s : State} (h : ConstructReady s) (body : Result) : admitConstruct s body = body := by
  obtain ⟨hf, hm, hd⟩ := h
  simp [admitConstruct, hf, hm, State.constructed, hd]

theorem admitTick_of_ready {s : State} {d : ChipDriver} {t : Luts} (h : TickReady s d t)
    (body : ChipDriver → Result) : admitTick s body = body d := by
  obtain ⟨hf, hm, hd, -⟩ := h
  simp [admitTick, hf, hm, hd]

/-- A host command that reaches its body was admitted. -/
theorem admitHost_cases (s : State) (body : ChipDriver → Result) :
    (s.fault = true ∧ admitHost s body = .fault .faulted) ∨
    (s.fault = false ∧ s.mode = .steady ∧ admitHost s body = .refused .hostInSteady) ∨
    (s.fault = false ∧ s.mode = .setup ∧ s.driver = none ∧ admitHost s body = .refused .notConstructed) ∨
    ∃ d, HostReady s d ∧ admitHost s body = body d := by
  cases hf : s.fault
  · cases hm : s.mode
    · cases hd : s.driver
      · simp [admitHost, HostReady, hf, hm, hd]
      · simp [admitHost, HostReady, hf, hm, hd]
    · simp [admitHost, HostReady, hf, hm]
  · simp [admitHost, HostReady, hf]

theorem admitHost_next {s t : State} {body : ChipDriver → Result} (h : admitHost s body = .next t) :
    ∃ d, HostReady s d ∧ body d = .next t := by
  rcases admitHost_cases s body with ⟨_, e⟩ | ⟨_, _, e⟩ | ⟨_, _, _, e⟩ | ⟨d, hd, e⟩ <;> rw [e] at h
  · cases h
  · cases h
  · cases h
  · exact ⟨d, hd, h⟩

theorem admitConstruct_next {s t : State} {body : Result} (h : admitConstruct s body = .next t) :
    ConstructReady s ∧ body = .next t := by
  simp only [admitConstruct] at h
  split at h
  · cases h
  · next hf =>
    split at h
    · cases h
    · next hm =>
      split at h
      · cases h
      · next hd => exact ⟨⟨by simpa using hf, hm, by simpa [State.constructed] using hd⟩, h⟩

theorem admitTick_next {s t : State} {body : ChipDriver → Result} (h : admitTick s body = .next t) :
    s.fault = false ∧ s.mode = .steady ∧ ∃ d, s.driver = some d ∧ body d = .next t := by
  simp only [admitTick] at h
  split at h
  · cases h
  · next hf =>
    split at h
    · cases h
    · cases h
    · next d hm hd => exact ⟨by simpa using hf, hm, d, hd, h⟩

end Sys2Proof.Machine
end

