-- ==== Sys2Proof/Laws/Buffer.lean ====
section
/-! SUPPORT. The laws of the command buffer: reads after writes, and that every write keeps the canonical form and,
inside the buffer, its set of addresses. -/

namespace Sys2Proof.Machine

/-! ## One byte -/

@[simp] theorem readByte_writeByte_self (m : Memory) (a : Nat) (b : Byte) :
    readByte (writeByte m a b) a = some b := by
  induction m with
  | nil => simp [writeByte, readByte]
  | cons c rest ih =>
    obtain ⟨k, v⟩ := c
    unfold writeByte
    split
    · simp [readByte]
    · split
      · simp [readByte]
      · next h => simp [readByte, h, ih]

theorem readByte_writeByte_other (m : Memory) {a a' : Nat} (b : Byte) (h : a' ≠ a) :
    readByte (writeByte m a b) a' = readByte m a' := by
  induction m with
  | nil => simp [writeByte, readByte, h]
  | cons c rest ih =>
    obtain ⟨k, v⟩ := c
    unfold writeByte
    split
    · rw [readByte, if_neg h]
    · split
      · next hk => subst hk; simp [readByte, h]
      · simp [readByte, ih]

theorem mem_addresses_writeByte (m : Memory) (a : Nat) (b : Byte) (k : Nat) :
    k ∈ (writeByte m a b).map Prod.fst ↔ k = a ∨ k ∈ m.map Prod.fst := by
  induction m with
  | nil => simp [writeByte]
  | cons c rest ih =>
    obtain ⟨j, v⟩ := c
    unfold writeByte
    split
    · simp
    · split
      · next h => subst h; simp
      · simp only [List.map_cons, List.mem_cons, ih]; tauto

/-- Writing a byte keeps the canonical form. -/
theorem writeByte_keeps_wf {m : Memory} (h : Memory.wf m) (a : Nat) (b : Byte) : Memory.wf (writeByte m a b) := by
  induction m with
  | nil => simp [Memory.wf, writeByte]
  | cons c rest ih =>
    obtain ⟨j, v⟩ := c
    simp only [Memory.wf, List.map_cons, List.pairwise_cons] at h
    unfold writeByte
    split
    · next hlt =>
      simp only [Memory.wf, List.map_cons, List.pairwise_cons, List.mem_cons]
      refine ⟨?_, h⟩
      rintro k (rfl | hk)
      · exact hlt
      · exact hlt.trans (h.1 k hk)
    · split
      · next _ he => subst he; simpa [Memory.wf] using h
      · next hlt hne =>
        simp only [Memory.wf, List.map_cons, List.pairwise_cons]
        refine ⟨?_, ih h.2⟩
        intro k hk
        rcases (mem_addresses_writeByte rest a b k).1 hk with rfl | hk
        · omega
        · exact h.1 k hk

/-- Writing to an address the buffer has leaves its addresses as they are: the buffer is not resized. -/
theorem addresses_writeByte_of_mem {m : Memory} (hwf : Memory.wf m) {a : Nat} (ha : a ∈ m.map Prod.fst) (b : Byte) :
    (writeByte m a b).map Prod.fst = m.map Prod.fst := by
  induction m with
  | nil => simp at ha
  | cons c rest ih =>
    obtain ⟨j, v⟩ := c
    simp only [Memory.wf, List.map_cons, List.pairwise_cons, List.mem_cons] at hwf ha
    unfold writeByte
    split
    · next hlt =>
      rcases ha with rfl | ha
      · omega
      · have := hwf.1 a ha; omega
    · split
      · next _ he => simp [he]
      · next hne => simp [ih hwf.2 (by tauto)]

/-! ## A big-endian value of several bytes -/

theorem memWrite_keeps_wf {m : Memory} (h : Memory.wf m) (a n v : Nat) : Memory.wf (memWrite a n v m) := by
  induction n generalizing v with
  | zero => exact h
  | succ n ih => exact writeByte_keeps_wf (ih _) _ _

theorem readByte_memWrite_other (m : Memory) {a n k : Nat} (v : Nat) (h : k < a ∨ a + n ≤ k) :
    readByte (memWrite a n v m) k = readByte m k := by
  induction n generalizing v with
  | zero => rfl
  | succ n ih =>
    rw [memWrite, readByte_writeByte_other _ _ (by omega), ih _ (by omega)]

/-- Byte `j` of an `n`-byte big-endian write is bits `8*(n-1-j)+7 .. 8*(n-1-j)` of the value. -/
theorem readByte_memWrite (m : Memory) (a : Nat) {n j : Nat} (v : Nat) (h : j < n) :
    readByte (memWrite a n v m) (a + j) = some (BitVec.ofNat 8 (v >>> (8 * (n - 1 - j)))) := by
  induction n generalizing v with
  | zero => omega
  | succ n ih =>
    rw [memWrite]
    rcases Nat.lt_or_ge j n with hj | hj
    · rw [readByte_writeByte_other _ _ (by omega), ih _ hj, ← Nat.shiftRight_add]
      congr 3; omega
    · obtain rfl : j = n := by omega
      simp

theorem addresses_memWrite_of_mem {m : Memory} (hwf : Memory.wf m) {a n : Nat} (v : Nat)
    (h : ∀ j < n, a + j ∈ m.map Prod.fst) : (memWrite a n v m).map Prod.fst = m.map Prod.fst := by
  induction n generalizing v with
  | zero => rfl
  | succ n ih =>
    have ih' := ih (v >>> 8) fun j hj => h j (by omega)
    rw [memWrite, addresses_writeByte_of_mem (memWrite_keeps_wf hwf _ _ _) (by rw [ih']; exact h n (by omega)), ih']

theorem memRead_congr {m m' : Memory} {a n : Nat} (h : ∀ j < n, readByte m' (a + j) = readByte m (a + j)) :
    memRead m' a n = memRead m a n := by
  induction n with
  | zero => rfl
  | succ n ih => rw [memRead, memRead, ih fun j hj => h j (by omega), h n (by omega)]

/-- Reading back what was written gives the value, cut to the bytes written. -/
theorem memRead_memWrite (m : Memory) (a n v : Nat) :
    memRead (memWrite a n v m) a n = some (v % 2 ^ (8 * n)) := by
  induction n generalizing v with
  | zero => simp [memRead, Nat.mod_one]
  | succ n ih =>
    rw [memRead, memRead_congr (m := memWrite a n (v >>> 8) m) (by
      intro j hj; rw [memWrite, readByte_writeByte_other _ _ (by omega)]), ih, memWrite, readByte_writeByte_self]
    simp only [BitVec.toNat_ofNat, Option.some.injEq]
    rw [← Nat.shiftLeft_add_eq_or_of_lt (Nat.mod_lt _ (by decide)), Nat.shiftLeft_eq, Nat.shiftRight_eq_div_pow,
      show 8 * (n + 1) = 8 + 8 * n by ring, pow_add, Nat.mod_mul]
    ring

theorem memRead_memWrite_other (m : Memory) {a n a' n' : Nat} (v : Nat) (h : a' + n' ≤ a ∨ a + n ≤ a') :
    memRead (memWrite a n v m) a' n' = memRead m a' n' :=
  memRead_congr fun j hj => readByte_memWrite_other m v (by omega)

/-- A two-byte read that has a value is its two bytes, the first the high one (R15). -/
theorem memRead_two {m : Memory} {a v : Nat} (h : memRead m a 2 = some v) :
    ∃ hi lo : Byte, readByte m a = some hi ∧ readByte m (a + 1) = some lo ∧ v = 256 * hi.toNat + lo.toNat := by
  simp only [memRead, Nat.add_zero] at h
  cases h0 : readByte m a with
  | none => simp [h0] at h
  | some hi =>
    cases h1 : readByte m (a + 1) with
    | none => simp [h0, h1] at h
    | some lo =>
      refine ⟨hi, lo, rfl, rfl, ?_⟩
      simp only [h0, h1, Option.some.injEq] at h
      rw [← h, ← Nat.shiftLeft_add_eq_or_of_lt lo.isLt]
      simp [Nat.shiftLeft_eq]; ring

/-! ## The created buffer -/

theorem readByte_createAux (n : Nat) (a base : Nat) :
    readByte ((List.range' base n).map fun k => (k, 0x00#8)) a = if base ≤ a ∧ a < base + n then some 0 else none := by
  induction n generalizing base with
  | zero => simp [readByte]
  | succ n ih =>
    rw [List.range'_succ, List.map_cons, readByte, ih]
    split
    · next h => subst h; simp
    · next h => congr 1; simp only [eq_iff_iff]; omega

@[simp] theorem readByte_createBuffer (cc a : Nat) :
    readByte (createBuffer cc) a = if a < bufLen cc then some 0 else none := by
  rw [createBuffer, List.range_eq_range', readByte_createAux]; simp

@[simp] theorem addresses_createBuffer (cc : Nat) : (createBuffer cc).map Prod.fst = List.range (bufLen cc) := by
  simp [createBuffer, Function.comp_def]

/-- A buffer whose addresses are `0 .. n-1` is in canonical form. -/
theorem wf_of_addresses {m : Memory} {n : Nat} (h : m.map Prod.fst = List.range n) : Memory.wf m := by
  rw [Memory.wf, h]; exact List.pairwise_lt_range

theorem createBuffer_wf (cc : Nat) : Memory.wf (createBuffer cc) := wf_of_addresses (addresses_createBuffer cc)

/-! ## Equal memories are equal data -/

theorem readByte_none_of_lt {m : Memory} {a : Nat} (h : ∀ k ∈ m.map Prod.fst, a < k) : readByte m a = none := by
  induction m with
  | nil => rfl
  | cons c rest ih =>
    obtain ⟨k, v⟩ := c
    simp only [List.map_cons, List.mem_cons, forall_eq_or_imp] at h
    rw [readByte, if_neg (by omega), ih h.2]

/-- Two canonical memories that read alike at every address are the same list. -/
theorem memory_ext {m m' : Memory} (hm : Memory.wf m) (hm' : Memory.wf m')
    (h : ∀ a, readByte m a = readByte m' a) : m = m' := by
  induction m generalizing m' with
  | nil =>
    cases m' with
    | nil => rfl
    | cons c' rest' => have := h c'.1; simp [readByte] at this
  | cons c rest ih =>
    obtain ⟨k, v⟩ := c
    cases m' with
    | nil => have := h k; simp [readByte] at this
    | cons c' rest' =>
      obtain ⟨k', v'⟩ := c'
      simp only [Memory.wf, List.map_cons, List.pairwise_cons] at hm hm'
      obtain rfl : k = k' := by
        rcases Nat.lt_trichotomy k k' with hlt | heq | hlt
        · have := h k
          rw [readByte, if_pos rfl, readByte, if_neg (by omega),
            readByte_none_of_lt fun j hj => hlt.trans (hm'.1 j hj)] at this
          cases this
        · exact heq
        · have := h k'
          rw [readByte, if_neg (by omega), readByte_none_of_lt fun j hj => hlt.trans (hm.1 j hj), readByte,
            if_pos rfl] at this
          cases this
      obtain rfl : v = v' := by simpa [readByte] using h k
      rw [ih hm.2 hm'.2 fun a => ?_]
      by_cases ha : a = k
      · subst ha; rw [readByte_none_of_lt hm.1, readByte_none_of_lt hm'.1]
      · simpa [readByte, ha] using h a

/-! ## The frame a buffer makes -/

theorem readByte_eq_getElem_aux {m : Memory} {n base : Nat} (h : m.map Prod.fst = List.range' base n) (k : Nat) :
    readByte m (base + k) = (frameOf m)[k]? := by
  induction n generalizing m base k with
  | zero => obtain rfl := List.map_eq_nil_iff.1 h; simp [readByte, frameOf]
  | succ n ih =>
    cases m with
    | nil => simp [List.range'_succ] at h
    | cons c rest =>
      obtain ⟨j, v⟩ := c
      rw [List.range'_succ, List.map_cons, List.cons.injEq] at h
      obtain ⟨rfl, hr⟩ := h
      cases k with
      | zero => simp [readByte, frameOf]
      | succ k =>
        have := ih hr k
        simp only [frameOf, List.map_cons, List.getElem?_cons_succ] at this ⊢
        rw [← this, readByte, if_neg (by simp), show j + 1 + k = j + (k + 1) by ring]

/-- Byte `k` of the frame is byte `k` of the buffer (R76). -/
theorem frameOf_getElem {m : Memory} {n : Nat} (h : m.map Prod.fst = List.range n) (k : Nat) :
    (frameOf m)[k]? = readByte m k := by
  rw [List.range_eq_range'] at h
  simpa using (readByte_eq_getElem_aux h k).symm

theorem frameOf_length {m : Memory} {n : Nat} (h : m.map Prod.fst = List.range n) : (frameOf m).length = n := by
  have := congrArg List.length h
  simpa [frameOf] using this

end Sys2Proof.Machine
end

