-- ==== Sys2Proof/Laws/Operands.lean ====
section
/-! SUPPORT. The operand forms and the header as arithmetic. -/

namespace Sys2Proof.Machine

/-- Replicating a byte into both halves is multiplying by 257 (R17). -/
theorem rep8_eq {v : Nat} (h : v < 256) : rep8 v = 257 * v := by
  rw [rep8, ← Nat.shiftLeft_add_eq_or_of_lt (i := 8) h, Nat.shiftLeft_eq]; ring

/-- The value of each operand form, as arithmetic (R78). -/
theorem channelValue_direct16 (v : Nat) : channelValue .direct16 v = v := rfl

theorem channelValue_replicated8 {v : Nat} (h : v < 256) : channelValue .replicated8 v = 257 * v := rep8_eq h

theorem channelValue_inverted16 (v : Nat) : channelValue .inverted16 v = 65535 - v := rfl

theorem channelValue_inverted8 {v : Nat} (h : v < 256) : channelValue .inverted8 v = 257 * (255 - v) := by
  rw [channelValue, inv8, rep8_eq (by omega)]

/-- An operand in its form's range makes a 16-bit channel value. -/
theorem channelValue_lt {form : OperandForm} {v : Nat} (h : (v : Int) ≤ operandMax form) :
    channelValue form v < 65536 := by
  cases form <;> simp only [operandMax] at h
  · rw [channelValue_direct16]; omega
  · rw [channelValue_replicated8 (by omega)]; omega
  · rw [channelValue_inverted16]; omega
  · rw [channelValue_inverted8 (by omega)]; omega

/-- Shifting left by 7 and OR-ing a 7-bit value in is multiplying by 128 and adding. -/
theorem shift7_or (a : Nat) (x : BitVec 7) : (a <<< 7) ||| x.toNat = 128 * a + x.toNat := by
  rw [← Nat.shiftLeft_add_eq_or_of_lt x.isLt, Nat.shiftLeft_eq]; ring

/-- The header as a sum of its fields, MAGIC5 cut to its low four bits (R71, R72). -/
theorem hdrOf_eq (m : BitVec 5) (c : BitVec 7) (r g b : Brightness) :
    hdrOf m c r g b =
      (m.toNat % 16) * 2 ^ 28 + c.toNat * 2 ^ 21 + r.toNat * 2 ^ 14 + g.toNat * 2 ^ 7 + b.toNat := by
  have := m.isLt; have := c.isLt; have := r.isLt; have := g.isLt; have := b.isLt
  simp only [hdrOf, shift7_or]
  omega

theorem top11_eq : top11 = (Config.magic5.toNat % 16) * 2 ^ 7 + Config.cfg7.toNat := by
  rw [top11, shift7_or]; ring

/-- The header reads MAGIC5 and CFG7 through TOP11 only (R73, R74). -/
theorem hdr_eq (r g b : Brightness) :
    hdr r g b = top11 * 2 ^ 21 + r.toNat * 2 ^ 14 + g.toNat * 2 ^ 7 + b.toNat := by
  rw [hdr, hdrOf_eq, top11_eq]; ring

theorem top11_lt : top11 < 2 ^ 11 := by
  have := Config.cfg7.isLt
  rw [top11_eq]; omega

theorem hdr_lt (r g b : Brightness) : hdr r g b < 2 ^ 32 := Nat.mod_lt _ (by decide)

end Sys2Proof.Machine
end

