-- ==== Sys2Proof/Laws/Store.lean ====
section
/-! SUPPORT. Everything a channel store and an LED store can do. -/

namespace Sys2Proof.Machine

/-! ## One channel -/

@[simp] theorem putChannel_cc (ch v : Nat) (d : ChipDriver) : (putChannel ch v d).cc = d.cc := rfl
@[simp] theorem putChannel_bcR (ch v : Nat) (d : ChipDriver) : (putChannel ch v d).bcR = d.bcR := rfl
@[simp] theorem putChannel_bcG (ch v : Nat) (d : ChipDriver) : (putChannel ch v d).bcG = d.bcG := rfl
@[simp] theorem putChannel_bcB (ch v : Nat) (d : ChipDriver) : (putChannel ch v d).bcB = d.bcB := rfl

/-- The channel written reads back (R107). -/
theorem channel_putChannel_self (ch : Nat) {v : Nat} (d : ChipDriver) (h : v < 65536) :
    channel (putChannel ch v d) ch = some v := by
  rw [channel, putChannel, memRead_memWrite, Nat.mod_eq_of_lt (by simpa using h)]

/-- Two channels share no byte (R56). -/
theorem offset_apart {cc ch ch' : Nat} (h : ch < cc) (h' : ch' < cc) (hne : ch ≠ ch') :
    offset cc ch + 2 ≤ offset cc ch' ∨ offset cc ch' + 2 ≤ offset cc ch := by
  simp only [offset]; omega

/-- Every other channel keeps its value (R107). -/
theorem channel_putChannel_other {ch ch' : Nat} (v : Nat) (d : ChipDriver) (h : ch < d.cc) (h' : ch' < d.cc)
    (hne : ch' ≠ ch) : channel (putChannel ch v d) ch' = channel d ch' := by
  simp only [channel, putChannel]
  exact memRead_memWrite_other _ _ (by have := offset_apart h' h hne; omega)

/-- Every byte outside the channel is unchanged (R107). -/
theorem readByte_putChannel_other {ch a : Nat} (v : Nat) (d : ChipDriver) (h : ¬ byteOfChannel d.cc ch a) :
    readByte (putChannel ch v d).buf a = readByte d.buf a := by
  simp only [byteOfChannel, not_or] at h
  exact readByte_memWrite_other _ _ (by omega)

/-- A channel's bytes lie inside the buffer, after the header (R54, R56). -/
theorem offset_bounds {cc ch : Nat} (h : ch < cc) : 4 ≤ offset cc ch ∧ offset cc ch + 1 < bufLen cc := by
  simp only [offset, bufLen]; omega

theorem addresses_putChannel {ch : Nat} (v : Nat) {d : ChipDriver} (h : ch < d.cc)
    (ha : d.buf.map Prod.fst = List.range (bufLen d.cc)) :
    (putChannel ch v d).buf.map Prod.fst = List.range (bufLen d.cc) := by
  have hb := offset_bounds h
  rw [putChannel, addresses_memWrite_of_mem (wf_of_addresses ha) _ (by
    intro j hj; rw [ha, List.mem_range]; omega), ha]

/-- The same progress with another encoder's state. -/
def Progress.withDriver (p : Progress) (d : ChipDriver) : Progress := { p with driver := d }

@[simp] theorem Progress.withDriver_driver (p : Progress) (d : ChipDriver) : (p.withDriver d).driver = d := rfl
@[simp] theorem Progress.withDriver_frames (p : Progress) (d : ChipDriver) : (p.withDriver d).frames = p.frames := rfl
@[simp] theorem Progress.withDriver_pauses (p : Progress) (d : ChipDriver) : (p.withDriver d).pauses = p.pauses := rfl
@[simp] theorem Progress.withDriver_raised (p : Progress) (d : ChipDriver) : (p.withDriver d).raised = p.raised := rfl

@[simp] theorem thenDo_withDriver {p : Progress} (h : p.raised = none) (d : ChipDriver) (f : Progress → Progress) :
    thenDo (p.withDriver d) f = f (p.withDriver d) := thenDo_of_none (by simpa using h) f

@[simp] theorem Progress.withDriver_withDriver (p : Progress) (d d' : ChipDriver) :
    (p.withDriver d).withDriver d' = p.withDriver d' := rfl

@[simp] theorem commit_begin_withDriver (s : State) (d d' : ChipDriver) :
    commit s ((begin s d).withDriver d') = { s with driver := some d' } := rfl

/-- A store whose operands are in range does this and nothing else (R105). -/
theorem storeChannel_inRange {form : OperandForm} {c v : Int} {p : Progress}
    (hc : 0 ≤ c ∧ c < p.driver.cc) (hv : 0 ≤ v ∧ v ≤ operandMax form) :
    storeChannel form c v p =
      p.withDriver (putChannel c.toNat (channelValue form v.toNat) p.driver) := by
  rw [storeChannel, if_neg (by omega), if_neg (by omega)]; rfl

/-- A bad channel number (R106). -/
theorem storeChannel_badChannel {form : OperandForm} {c : Int} (v : Int) {p : Progress}
    (hc : c < 0 ∨ c ≥ p.driver.cc) : storeChannel form c v p = { p with raised := some .channelIndex } := by
  rw [storeChannel, if_pos hc]

/-- A good channel number and a bad value (R106). -/
theorem storeChannel_badValue {form : OperandForm} {c v : Int} {p : Progress}
    (hc : 0 ≤ c ∧ c < p.driver.cc) (hv : v < 0 ∨ v > operandMax form) :
    storeChannel form c v p = { p with raised := some .pwmValue } := by
  rw [storeChannel, if_neg (by omega), if_pos hv]

/-- The three cases of a channel store. -/
theorem storeChannel_cases (form : OperandForm) (c v : Int) (p : Progress) :
    storeChannel form c v p = { p with raised := some .channelIndex } ∨
    storeChannel form c v p = { p with raised := some .pwmValue } ∨
    (0 ≤ c ∧ c < p.driver.cc ∧ storeChannel form c v p =
      p.withDriver (putChannel c.toNat (channelValue form v.toNat) p.driver)) := by
  by_cases hc : c < 0 ∨ c ≥ p.driver.cc
  · exact .inl (storeChannel_badChannel v hc)
  · by_cases hv : v < 0 ∨ v > operandMax form
    · exact .inr (.inl (storeChannel_badValue (by omega) hv))
    · exact .inr (.inr ⟨by omega, by omega, storeChannel_inRange (by omega) (by omega)⟩)

/-! ## One LED -/

/-- The encoder after the three channels of LED `i` took the values `vr`, `vg`, `vb`. -/
def putLed (i vr vg vb : Nat) (d : ChipDriver) : ChipDriver :=
  putChannel (3 * i + 2) vb (putChannel (3 * i + 1) vg (putChannel (3 * i) vr d))

@[simp] theorem putLed_cc (i r g b : Nat) (d : ChipDriver) : (putLed i r g b d).cc = d.cc := rfl
@[simp] theorem putLed_bcR (i r g b : Nat) (d : ChipDriver) : (putLed i r g b d).bcR = d.bcR := rfl
@[simp] theorem putLed_bcG (i r g b : Nat) (d : ChipDriver) : (putLed i r g b d).bcG = d.bcG := rfl
@[simp] theorem putLed_bcB (i r g b : Nat) (d : ChipDriver) : (putLed i r g b d).bcB = d.bcB := rfl

theorem putLed_stores {i vr vg vb : Nat} (d : ChipDriver) (hi : 3 * i + 2 < d.cc)
    (hr : vr < 65536) (hg : vg < 65536) (hb : vb < 65536) : LedStored d (putLed i vr vg vb d) i vr vg vb where
  cc := rfl
  bcR := rfl
  bcG := rfl
  bcB := rfl
  red := by
    rw [putLed, channel_putChannel_other _ _ (by simpa using hi) (by simp; omega) (by omega),
      channel_putChannel_other _ _ (by simp; omega) (by simp; omega) (by omega), channel_putChannel_self _ _ hr]
  green := by
    rw [putLed, channel_putChannel_other _ _ (by simpa using hi) (by simp; omega) (by omega),
      channel_putChannel_self _ _ hg]
  blue := channel_putChannel_self _ _ hb
  other a ha := by
    rw [putLed, readByte_putChannel_other, readByte_putChannel_other, readByte_putChannel_other]
    · simpa using ha 0 (by decide)
    · exact ha 1 (by decide)
    · exact ha 2 (by decide)

/-- An LED store whose operands are in range does this and nothing else (R110, R114, R130, R134). -/
theorem storeLed_inRange {form : OperandForm} {i r g b : Int} {p : Progress} (hp : p.raised = none)
    (hi : 0 ≤ i ∧ 3 * i + 2 < p.driver.cc) (hr : 0 ≤ r ∧ r ≤ operandMax form)
    (hg : 0 ≤ g ∧ g ≤ operandMax form) (hb : 0 ≤ b ∧ b ≤ operandMax form) :
    storeLed form i r g b p = p.withDriver
      (putLed i.toNat (channelValue form r.toNat) (channelValue form g.toNat) (channelValue form b.toNat) p.driver) := by
  have e1 : (3 * i).toNat = 3 * i.toNat := by omega
  have e2 : (3 * i + 1).toNat = 3 * i.toNat + 1 := by omega
  have e3 : (3 * i + 2).toNat = 3 * i.toNat + 2 := by omega
  rw [storeLed, thenDo_of_none hp, storeChannel_inRange (by omega) hr, thenDo_withDriver hp,
    storeChannel_inRange (by simp; omega) hg,
    Progress.withDriver_withDriver, thenDo_withDriver hp,
    storeChannel_inRange (by simp; omega) hb, e1, e2, e3]
  rfl

/-- A bad LED index faults at the first channel and writes nothing (R111). -/
theorem storeLed_badIndex {form : OperandForm} {i : Int} (r g b : Int) {p : Progress} (hp : p.raised = none)
    (hi : i < 0 ∨ 3 * i ≥ p.driver.cc) : storeLed form i r g b p = { p with raised := some .channelIndex } := by
  rw [storeLed, thenDo_of_none hp, storeChannel_badChannel _ (by omega), thenDo_of_some rfl, thenDo_of_some rfl]

theorem storeLed_badRed {form : OperandForm} {i r : Int} (g b : Int) {p : Progress} (hp : p.raised = none)
    (hi : 0 ≤ i ∧ 3 * i + 2 < p.driver.cc) (hr : r < 0 ∨ r > operandMax form) :
    storeLed form i r g b p = { p with raised := some .pwmValue } := by
  rw [storeLed, thenDo_of_none hp, storeChannel_badValue (by omega) hr, thenDo_of_some rfl, thenDo_of_some rfl]

theorem storeLed_badGreen {form : OperandForm} {i r g : Int} (b : Int) {p : Progress} (hp : p.raised = none)
    (hi : 0 ≤ i ∧ 3 * i + 2 < p.driver.cc) (hr : 0 ≤ r ∧ r ≤ operandMax form) (hg : g < 0 ∨ g > operandMax form) :
    storeLed form i r g b p = { p.withDriver
      (putChannel (3 * i.toNat) (channelValue form r.toNat) p.driver) with raised := some .pwmValue } := by
  have e1 : (3 * i).toNat = 3 * i.toNat := by omega
  rw [storeLed, thenDo_of_none hp, storeChannel_inRange (by omega) hr,
    thenDo_withDriver hp, storeChannel_badValue (by simp; omega) hg, thenDo_of_some rfl, e1]

theorem storeLed_badBlue {form : OperandForm} {i r g b : Int} {p : Progress} (hp : p.raised = none)
    (hi : 0 ≤ i ∧ 3 * i + 2 < p.driver.cc) (hr : 0 ≤ r ∧ r ≤ operandMax form)
    (hg : 0 ≤ g ∧ g ≤ operandMax form) (hb : b < 0 ∨ b > operandMax form) :
    storeLed form i r g b p = { p.withDriver
      (putChannel (3 * i.toNat + 1) (channelValue form g.toNat)
        (putChannel (3 * i.toNat) (channelValue form r.toNat) p.driver)) with raised := some .pwmValue } := by
  have e1 : (3 * i).toNat = 3 * i.toNat := by omega
  have e2 : (3 * i + 1).toNat = 3 * i.toNat + 1 := by omega
  rw [storeLed, thenDo_of_none hp, storeChannel_inRange (by omega) hr,
    thenDo_withDriver hp, storeChannel_inRange (by simp; omega) hg,
    Progress.withDriver_withDriver, thenDo_withDriver hp, storeChannel_badValue (by simp; omega) hb, e1, e2]
  rfl

theorem ledPartlyStored_refl (d : ChipDriver) (i : Nat) : LedPartlyStored d d i :=
  ⟨rfl, rfl, rfl, rfl, rfl, fun _ _ => rfl⟩

/-- One more of the LED's red and green channels stored. -/
theorem ledPartlyStored_putChannel {d d' : ChipDriver} {i j : Nat} (v : Nat) (h : LedPartlyStored d d' i)
    (hj : j < 2) (hi : 3 * i + 2 < d.cc) (ha : d.buf.map Prod.fst = List.range (bufLen d.cc)) :
    LedPartlyStored d (putChannel (3 * i + j) v d') i where
  cc := h.cc
  bcR := h.bcR
  bcG := h.bcG
  bcB := h.bcB
  addresses := by
    have hd := h.addresses.trans ha
    rw [← h.cc] at hd
    rw [addresses_putChannel v (by rw [h.cc]; omega) hd, ← hd, h.addresses]
  other a hn := by rw [readByte_putChannel_other _ _ (by rw [h.cc]; exact hn j hj), h.other a hn]

/-- An LED store that raises a fault: a bad index wrote nothing, and a bad value at most red and green (R181). -/
theorem storeLed_raised {form : OperandForm} {i r g b : Int} {p : Progress} (hp : p.raised = none)
    (h3 : p.driver.cc % 3 = 0) (ha : p.driver.buf.map Prod.fst = List.range (bufLen p.driver.cc)) {c : FaultCode}
    (h : (storeLed form i r g b p).raised = some c) :
    (c = .channelIndex ∧ (storeLed form i r g b p).driver = p.driver) ∨
    (c = .pwmValue ∧ 0 ≤ i ∧ LedPartlyStored p.driver (storeLed form i r g b p).driver i.toNat) := by
  by_cases hi : i < 0 ∨ 3 * i ≥ p.driver.cc
  · rw [storeLed_badIndex r g b hp hi] at h ⊢
    exact .inl ⟨by simpa using h.symm, rfl⟩
  · have hi' : 0 ≤ i ∧ 3 * i + 2 < p.driver.cc := by omega
    have hn : 3 * i.toNat + 2 < p.driver.cc := by omega
    have red (v : Nat) :=
      ledPartlyStored_putChannel v (ledPartlyStored_refl p.driver i.toNat) (j := 0) (by decide) hn ha
    right
    by_cases hr : r < 0 ∨ r > operandMax form
    · rw [storeLed_badRed g b hp hi' hr] at h ⊢
      exact ⟨by simpa using h.symm, hi'.1, ledPartlyStored_refl _ _⟩
    · by_cases hg : g < 0 ∨ g > operandMax form
      · rw [storeLed_badGreen b hp hi' (by omega) hg] at h ⊢
        exact ⟨by simpa using h.symm, hi'.1, red _⟩
      · by_cases hb : b < 0 ∨ b > operandMax form
        · rw [storeLed_badBlue hp hi' (by omega) (by omega) hb] at h ⊢
          exact ⟨by simpa using h.symm, hi'.1, ledPartlyStored_putChannel _ (red _) (j := 1) (by decide) hn ha⟩
        · rw [storeLed_inRange hp hi' (by omega) (by omega) (by omega)] at h
          simp [hp] at h

/-! ## What every primitive step keeps -/

/-- From `p` to `q`: FRAMES only grew, by frames of the buffer's length; the encoder kept CC, the brightness, the
header bytes and the buffer's addresses; and a fault raised has a code. -/
structure Progress.Evolves (p q : Progress) : Prop where
  cc        : q.driver.cc = p.driver.cc
  bcR       : q.driver.bcR = p.driver.bcR
  bcG       : q.driver.bcG = p.driver.bcG
  bcB       : q.driver.bcB = p.driver.bcB
  header    : ∀ a < 4, readByte q.driver.buf a = readByte p.driver.buf a
  addresses : p.driver.buf.map Prod.fst = List.range (bufLen p.driver.cc) →
    q.driver.buf.map Prod.fst = List.range (bufLen p.driver.cc)
  frames    : ∃ fs, q.frames = p.frames ++ fs ∧
    (p.driver.buf.map Prod.fst = List.range (bufLen p.driver.cc) → ∀ f ∈ fs, f.length = bufLen p.driver.cc)
  pauses    : p.pauses <+: q.pauses
  raised    : p.raised ≠ some .none → q.raised ≠ some .none

theorem Progress.Evolves.refl (p : Progress) : p.Evolves p :=
  ⟨rfl, rfl, rfl, rfl, fun _ _ => rfl, id, ⟨[], by simp, by simp⟩, List.prefix_rfl, id⟩

theorem Progress.Evolves.trans {p q r : Progress} (h : p.Evolves q) (h' : q.Evolves r) : p.Evolves r where
  cc := h'.cc.trans h.cc
  bcR := h'.bcR.trans h.bcR
  bcG := h'.bcG.trans h.bcG
  bcB := h'.bcB.trans h.bcB
  header a ha := (h'.header a ha).trans (h.header a ha)
  addresses hp := by
    have hq := h.addresses hp
    rw [← h.cc] at hq
    rw [h'.addresses hq, h.cc]
  frames := by
    obtain ⟨fs, he, hl⟩ := h.frames
    obtain ⟨gs, he', hl'⟩ := h'.frames
    refine ⟨fs ++ gs, by rw [he', he, List.append_assoc], fun hp f hf => ?_⟩
    rcases List.mem_append.1 hf with hf | hf
    · exact hl hp f hf
    · have hq := h.addresses hp
      rw [← h.cc] at hq
      rw [hl' hq f hf, h.cc]
  pauses := h.pauses.trans h'.pauses
  raised := fun hp => h'.raised (h.raised hp)

theorem Progress.Evolves.thenDo {p q : Progress} (h : p.Evolves q) {f : Progress → Progress}
    (hf : ∀ q : Progress, q.Evolves (f q)) : p.Evolves (thenDo q f) := by
  cases hq : q.raised with
  | none => rw [thenDo_of_none hq]; exact h.trans (hf q)
  | some c => rw [thenDo_of_some hq]; exact h

theorem storeChannel_evolves (form : OperandForm) (c v : Int) (p : Progress) :
    p.Evolves (storeChannel form c v p) := by
  rcases storeChannel_cases form c v p with h | h | ⟨h0, hcc, h⟩ <;> rw [h]
  · exact ⟨rfl, rfl, rfl, rfl, fun _ _ => rfl, id, ⟨[], by simp, by simp⟩, List.prefix_rfl, by simp⟩
  · exact ⟨rfl, rfl, rfl, rfl, fun _ _ => rfl, id, ⟨[], by simp, by simp⟩, List.prefix_rfl, by simp⟩
  · refine ⟨rfl, rfl, rfl, rfl, fun a ha => ?_, fun hp => ?_, ⟨[], by simp, by simp⟩, List.prefix_rfl, id⟩
    · have := offset_bounds (cc := p.driver.cc) (ch := c.toNat) (by omega)
      exact readByte_putChannel_other _ _ (by simp only [byteOfChannel]; omega)
    · exact addresses_putChannel _ (by omega) hp

theorem storeLed_evolves (form : OperandForm) (i r g b : Int) (p : Progress) : p.Evolves (storeLed form i r g b p) :=
  (((Progress.Evolves.refl p).thenDo (storeChannel_evolves _ _ _)).thenDo (storeChannel_evolves _ _ _)).thenDo
    (storeChannel_evolves _ _ _)

theorem emitFrame_evolves (p : Progress) : p.Evolves (emitFrame p) :=
  ⟨rfl, rfl, rfl, rfl, fun _ _ => rfl, id,
    ⟨[frameOf p.driver.buf], rfl, fun hp f hf => by
      rw [List.mem_singleton.1 hf, frameOf_length hp]⟩, List.prefix_rfl, id⟩

theorem emitDelay_evolves (n : Nat) (p : Progress) : p.Evolves (emitDelay n p) :=
  ⟨rfl, rfl, rfl, rfl, fun _ _ => rfl, id, ⟨[], by simp, by simp⟩, by simp, id⟩

/-- A store transmits nothing. -/
theorem thenDo_frames {p : Progress} {f : Progress → Progress} (hf : ∀ q : Progress, (f q).frames = q.frames) :
    (thenDo p f).frames = p.frames := by
  cases hp : p.raised with
  | none => rw [thenDo_of_none hp, hf]
  | some c => rw [thenDo_of_some hp]

theorem thenDo_pauses {p : Progress} {f : Progress → Progress} (hf : ∀ q : Progress, (f q).pauses = q.pauses) :
    (thenDo p f).pauses = p.pauses := by
  cases hp : p.raised with
  | none => rw [thenDo_of_none hp, hf]
  | some c => rw [thenDo_of_some hp]

@[simp] theorem storeChannel_frames (form : OperandForm) (c v : Int) (p : Progress) :
    (storeChannel form c v p).frames = p.frames := by
  rcases storeChannel_cases form c v p with h | h | ⟨_, _, h⟩ <;> rw [h]; rfl

@[simp] theorem storeChannel_pauses (form : OperandForm) (c v : Int) (p : Progress) :
    (storeChannel form c v p).pauses = p.pauses := by
  rcases storeChannel_cases form c v p with h | h | ⟨_, _, h⟩ <;> rw [h]; rfl

@[simp] theorem storeLed_frames (form : OperandForm) (i r g b : Int) (p : Progress) :
    (storeLed form i r g b p).frames = p.frames := by
  rw [storeLed, thenDo_frames (by simp), thenDo_frames (by simp), thenDo_frames (by simp)]

@[simp] theorem storeLed_pauses (form : OperandForm) (i r g b : Int) (p : Progress) :
    (storeLed form i r g b p).pauses = p.pauses := by
  rw [storeLed, thenDo_pauses (by simp), thenDo_pauses (by simp), thenDo_pauses (by simp)]

end Sys2Proof.Machine
end

