-- ==== Sys2Proof/Laws/Sequencer.lean ====
section
/-! SUPPORT. The sequencer's commands: what rendering a light does, what the whole fade does, what one tick does. -/

namespace Sys2Proof.Machine

/-! ## Rendering one light -/

/-- The encoder after light `l` was rendered in the colour `c`. -/
def drawLight (l : Fin Config.nLights) (c : Color) (d : ChipDriver) : ChipDriver :=
  putLed l.val (257 * (255 - c.r.toNat)) (257 * (255 - c.g.toNat)) (257 * (255 - c.b.toNat)) d

@[simp] theorem drawLight_cc (l : Fin Config.nLights) (c : Color) (d : ChipDriver) : (drawLight l c d).cc = d.cc := rfl

theorem drawLight_stores (l : Fin Config.nLights) (c : Color) {d : ChipDriver} (hcc : 12 ≤ d.cc) :
    LedStored d (drawLight l c d) l.val (257 * (255 - c.r.toNat)) (257 * (255 - c.g.toNat))
      (257 * (255 - c.b.toNat)) :=
  have hl : l.val < 4 := l.isLt
  putLed_stores d (by omega) (by omega) (by omega) (by omega)

/-- Rendering cannot fault on a buffer of 12 channels or more (R142, R154). -/
theorem renderLight_eq (l : Fin Config.nLights) (c : Color) {p : Progress} (hp : p.raised = none)
    (hcc : 12 ≤ p.driver.cc) : renderLight l c p = p.withDriver (drawLight l c p.driver) := by
  have hl : l.val < 4 := l.isLt
  have := c.r.isLt; have := c.g.isLt; have := c.b.isLt
  have hr : ((c.r.toNat : Int)) ≤ operandMax .inverted8 := by simp only [operandMax]; omega
  have hg : ((c.g.toNat : Int)) ≤ operandMax .inverted8 := by simp only [operandMax]; omega
  have hb : ((c.b.toNat : Int)) ≤ operandMax .inverted8 := by simp only [operandMax]; omega
  rw [renderLight, storeLed_inRange hp (by omega) ⟨by omega, hr⟩ ⟨by omega, hg⟩ ⟨by omega, hb⟩]
  simp only [Int.toNat_natCast]
  rw [channelValue_inverted8 (by omega), channelValue_inverted8 (by omega), channelValue_inverted8 (by omega),
    drawLight]

theorem renderLight_evolves (l : Fin Config.nLights) (c : Color) (p : Progress) : p.Evolves (renderLight l c p) :=
  storeLed_evolves _ _ _ _ _ _

/-! ## Channels under rendering -/

theorem channel_putLed_other {i ch : Nat} (r g b : Nat) {d : ChipDriver} (hi : 3 * i + 2 < d.cc) (hch : ch < d.cc)
    (hne : ch ≠ 3 * i ∧ ch ≠ 3 * i + 1 ∧ ch ≠ 3 * i + 2) : channel (putLed i r g b d) ch = channel d ch := by
  rw [putLed, channel_putChannel_other _ _ (by simpa using hi) (by simpa using hch) hne.2.2,
    channel_putChannel_other _ _ (by simp; omega) (by simpa using hch) hne.2.1,
    channel_putChannel_other _ _ (by omega) hch hne.1]

theorem drawLight_shows (l : Fin Config.nLights) (c : Color) {d : ChipDriver} (hcc : 12 ≤ d.cc) :
    ShowsColor (drawLight l c d) l c :=
  have h := drawLight_stores l c hcc
  ⟨h.red, h.green, h.blue⟩

theorem drawLight_shows_other {l l' : Fin Config.nLights} (c : Color) {c' : Color} {d : ChipDriver} (hcc : 12 ≤ d.cc)
    (hne : l' ≠ l) : ShowsColor (drawLight l c d) l' c' ↔ ShowsColor d l' c' := by
  have hl : l.val < 4 := l.isLt
  have hl' : l'.val < 4 := l'.isLt
  have hv : l'.val ≠ l.val := fun h => hne (Fin.ext h)
  simp only [ShowsColor, drawLight]
  rw [channel_putLed_other _ _ _ (by omega) (by omega) (by omega),
    channel_putLed_other _ _ _ (by omega) (by omega) (by omega),
    channel_putLed_other _ _ _ (by omega) (by omega) (by omega)]

/-- Rendering reaches no byte before channel 11's: the header and channels 12 and up are not touched (R58). -/
theorem readByte_drawLight (l : Fin Config.nLights) (c : Color) {d : ChipDriver} {a : Nat} (hcc : 12 ≤ d.cc)
    (ha : a < offset d.cc 11 ∨ bufLen d.cc ≤ a) : readByte (drawLight l c d).buf a = readByte d.buf a := by
  have hl : l.val < 4 := l.isLt
  refine (drawLight_stores l c hcc).other a fun j hj => ?_
  simp only [byteOfChannel, offset, bufLen] at ha ⊢
  omega

theorem addresses_drawLight (l : Fin Config.nLights) (c : Color) {d : ChipDriver} (hcc : 12 ≤ d.cc)
    (ha : d.buf.map Prod.fst = List.range (bufLen d.cc)) :
    (drawLight l c d).buf.map Prod.fst = List.range (bufLen d.cc) := by
  have hl : l.val < 4 := l.isLt
  exact addresses_putChannel _ (by simp; omega) (addresses_putChannel _ (by simp; omega)
    (addresses_putChannel _ (by omega) ha))

/-! ## The fade -/

section Fade

variable (color : Angle → Byte → Byte → Color) (mode : FadeWriteMode) (delay : Nat)
  (phase : Vector Angle Config.nLights)

/-- The colour of light `l` at a fade level. -/
def fadeColor (level : Nat) (l : Fin Config.nLights) : Color := color phase[l] 255#8 (BitVec.ofNat 8 level)

/-- The encoder after the lights `0 .. k-1` of a level were rendered. -/
def drawLights (level : Nat) : List (Fin Config.nLights) → ChipDriver → ChipDriver
  | [], d => d
  | l :: ls, d => drawLights level ls (drawLight l (fadeColor color phase level l) d)

@[simp] theorem drawLights_cc (level : Nat) (ls : List (Fin Config.nLights)) (d : ChipDriver) :
    (drawLights color phase level ls d).cc = d.cc := by
  induction ls generalizing d with
  | nil => rfl
  | cons l ls ih => rw [drawLights, ih]; rfl

@[simp] theorem drawLights_bcR (level : Nat) (ls : List (Fin Config.nLights)) (d : ChipDriver) :
    (drawLights color phase level ls d).bcR = d.bcR := by
  induction ls generalizing d with
  | nil => rfl
  | cons l ls ih => rw [drawLights, ih]; rfl

@[simp] theorem drawLights_bcG (level : Nat) (ls : List (Fin Config.nLights)) (d : ChipDriver) :
    (drawLights color phase level ls d).bcG = d.bcG := by
  induction ls generalizing d with
  | nil => rfl
  | cons l ls ih => rw [drawLights, ih]; rfl

@[simp] theorem drawLights_bcB (level : Nat) (ls : List (Fin Config.nLights)) (d : ChipDriver) :
    (drawLights color phase level ls d).bcB = d.bcB := by
  induction ls generalizing d with
  | nil => rfl
  | cons l ls ih => rw [drawLights, ih]; rfl

/-- The frames the lights of a list transmit: one each in PER_LIGHT mode, none in PER_LEVEL mode. -/
def lightFrames (level : Nat) : List (Fin Config.nLights) → ChipDriver → List Frame
  | [], _ => []
  | l :: ls, d =>
    let d' := drawLight l (fadeColor color phase level l) d
    (match mode with
      | .perLight => [frameOf d'.buf]
      | .perLevel => []) ++ lightFrames level ls d'

/-- The frames one level transmits, in either mode. -/
def levelFrames (level : Nat) (d : ChipDriver) : List Frame :=
  lightFrames color mode phase level lights d ++
    match mode with
    | .perLight => []
    | .perLevel => [frameOf (drawLights color phase level lights d).buf]

/-- Frames per level: 4 in PER_LIGHT mode, 1 in PER_LEVEL mode (R142). -/
def framesPerLevel : FadeWriteMode → Nat
  | .perLight => 4
  | .perLevel => 1

theorem levelFrames_length (level : Nat) (d : ChipDriver) :
    (levelFrames color mode phase level d).length = framesPerLevel mode := by
  cases mode <;> simp [levelFrames, framesPerLevel, lightFrames, lights]

/-- The encoder before level `n` of the fade. -/
def faded : Nat → ChipDriver → ChipDriver
  | 0, d => d
  | n + 1, d => drawLights color phase n lights (faded n d)

@[simp] theorem faded_cc (n : Nat) (d : ChipDriver) : (faded color phase n d).cc = d.cc := by
  induction n with
  | zero => rfl
  | succ n ih => rw [faded, drawLights_cc, ih]

@[simp] theorem faded_bcR (n : Nat) (d : ChipDriver) : (faded color phase n d).bcR = d.bcR := by
  induction n with
  | zero => rfl
  | succ n ih => rw [faded, drawLights_bcR, ih]

@[simp] theorem faded_bcG (n : Nat) (d : ChipDriver) : (faded color phase n d).bcG = d.bcG := by
  induction n with
  | zero => rfl
  | succ n ih => rw [faded, drawLights_bcG, ih]

@[simp] theorem faded_bcB (n : Nat) (d : ChipDriver) : (faded color phase n d).bcB = d.bcB := by
  induction n with
  | zero => rfl
  | succ n ih => rw [faded, drawLights_bcB, ih]

/-- The frames of the levels before `n`. -/
def fadeFrames : Nat → ChipDriver → List Frame
  | 0, _ => []
  | n + 1, d => fadeFrames n d ++ levelFrames color mode phase n (faded color phase n d)

theorem fadeFrames_length (n : Nat) (d : ChipDriver) :
    (fadeFrames color mode phase n d).length = framesPerLevel mode * n := by
  induction n with
  | zero => rfl
  | succ n ih => rw [fadeFrames, List.length_append, ih, levelFrames_length]; ring

/-- The pauses of the levels before `n`: one after each level's frames. -/
def fadePauses (before : Nat) (n : Nat) : List Pause :=
  (List.range n).map fun k => ⟨before + framesPerLevel mode * (k + 1), delay⟩

/-- One light of a level (R141). -/
theorem fadeLight_eq (level : Nat) (l : Fin Config.nLights) {d : ChipDriver} (fs : List Frame) (ps : List Pause)
    (hcc : 12 ≤ d.cc) :
    fadeLight color mode phase (BitVec.ofNat 8 level) ⟨d, fs, ps, none⟩ l =
      ⟨drawLight l (fadeColor color phase level l) d, fs ++ lightFrames color mode phase level [l] d, ps, none⟩ := by
  have h : thenDo ⟨d, fs, ps, none⟩ (renderLight l (fadeColor color phase level l)) =
      ⟨drawLight l (fadeColor color phase level l) d, fs, ps, none⟩ := by
    rw [thenDo_of_none rfl, renderLight_eq _ _ rfl hcc]; rfl
  simp only [fadeColor] at h
  simp only [fadeLight, h]
  cases mode
  · rfl
  · simp [lightFrames, fadeColor]

/-- The lights of a level, one after the other. -/
theorem fadeLights_eq (level : Nat) (ls : List (Fin Config.nLights)) {d : ChipDriver} (fs : List Frame)
    (ps : List Pause) (hcc : 12 ≤ d.cc) :
    ls.foldl (fadeLight color mode phase (BitVec.ofNat 8 level)) ⟨d, fs, ps, none⟩ =
      ⟨drawLights color phase level ls d, fs ++ lightFrames color mode phase level ls d, ps, none⟩ := by
  induction ls generalizing d fs with
  | nil => simp [drawLights, lightFrames]
  | cons l ls ih =>
    rw [List.foldl_cons, fadeLight_eq _ _ _ _ _ _ _ hcc, ih _ (by simpa using hcc)]
    simp [drawLights, lightFrames]

/-- A level on a buffer of 12 channels or more: no fault, the four lights, the frames, the pause (R141, R142). -/
theorem fadeLevel_eq (level : Nat) {d : ChipDriver} (fs : List Frame) (ps : List Pause) (hcc : 12 ≤ d.cc) :
    fadeLevel color mode delay phase ⟨d, fs, ps, none⟩ level =
      ⟨drawLights color phase level lights d, fs ++ levelFrames color mode phase level d,
        ps ++ [⟨fs.length + framesPerLevel mode, delay⟩], none⟩ := by
  have hl := levelFrames_length color mode phase level d
  simp only [fadeLevel]
  rw [fadeLights_eq _ _ _ _ _ _ _ hcc]
  cases mode
  · simp only [levelFrames, List.append_nil] at hl ⊢
    simp [thenDo, emitDelay, hl]
  · simp only [levelFrames] at hl ⊢
    rw [List.length_append] at hl
    simp [thenDo, emitDelay, emitFrame, framesPerLevel] at hl ⊢
    omega

/-- The whole fade, level by level (R141, R142). -/
theorem fade_levels {d : ChipDriver} (fs : List Frame) (ps : List Pause) (hcc : 12 ≤ d.cc) (n : Nat) :
    (List.range n).foldl (fadeLevel color mode delay phase) ⟨d, fs, ps, none⟩ =
      ⟨faded color phase n d, fs ++ fadeFrames color mode phase n d,
        ps ++ fadePauses mode delay fs.length n, none⟩ := by
  induction n with
  | zero => simp [faded, fadeFrames, fadePauses]
  | succ n ih =>
    rw [List.range_succ, List.foldl_append, ih, List.foldl_cons, List.foldl_nil,
      fadeLevel_eq _ _ _ _ _ _ _ (by simpa using hcc)]
    simp only [faded, fadeFrames, fadePauses, List.append_assoc, List.length_append, fadeFrames_length,
      List.range_succ, List.map_append, List.map_cons, List.map_nil]
    congr 5
    ring

/-- The frames of the fade, one level's after the other. -/
theorem fadeFrames_getElem {n level k : Nat} (d : ChipDriver) (hl : level < n) (hk : k < framesPerLevel mode) :
    (fadeFrames color mode phase n d)[framesPerLevel mode * level + k]? =
      (levelFrames color mode phase level (faded color phase level d))[k]? := by
  induction n with
  | zero => omega
  | succ n ih =>
    have hlen := fadeFrames_length color mode phase n d
    rcases Nat.lt_or_ge level n with h | h
    · have hb : framesPerLevel mode * level + k < framesPerLevel mode * n := by
        calc framesPerLevel mode * level + k < framesPerLevel mode * (level + 1) := by rw [Nat.mul_succ]; omega
          _ ≤ framesPerLevel mode * n := Nat.mul_le_mul_left _ h
      rw [fadeFrames, List.getElem?_append_left (by omega), ih h]
    · obtain rfl : level = n := by omega
      rw [fadeFrames, List.getElem?_append_right (by omega), hlen, Nat.add_sub_cancel_left]

variable {color phase}

theorem drawLights_shows {level : Nat} {ls : List (Fin Config.nLights)} (hnd : ls.Nodup) {d : ChipDriver}
    (hcc : 12 ≤ d.cc) {l : Fin Config.nLights} (hl : l ∈ ls) :
    ShowsColor (drawLights color phase level ls d) l (fadeColor color phase level l) := by
  induction ls generalizing d with
  | nil => simp at hl
  | cons k ls ih =>
    rw [List.nodup_cons] at hnd
    rw [drawLights]
    by_cases hm : l ∈ ls
    · exact ih hnd.2 (by simpa using hcc) hm
    · obtain rfl : l = k := by simpa [hm] using hl
      exact drawLights_keeps hm (by simpa using hcc) (drawLight_shows _ _ hcc)
where
  drawLights_keeps {level : Nat} {ls : List (Fin Config.nLights)} {d : ChipDriver} {l : Fin Config.nLights} {c : Color}
      (hl : l ∉ ls) (hcc : 12 ≤ d.cc) (h : ShowsColor d l c) :
      ShowsColor (drawLights color phase level ls d) l c := by
    induction ls generalizing d with
    | nil => exact h
    | cons k ls ih =>
      rw [List.mem_cons, not_or] at hl
      exact ih hl.2 (by simpa using hcc) ((drawLight_shows_other _ hcc hl.1).2 h)

theorem readByte_drawLights (level : Nat) (ls : List (Fin Config.nLights)) {d : ChipDriver} {a : Nat}
    (hcc : 12 ≤ d.cc) (ha : a < offset d.cc 11 ∨ bufLen d.cc ≤ a) :
    readByte (drawLights color phase level ls d).buf a = readByte d.buf a := by
  induction ls generalizing d with
  | nil => rfl
  | cons l ls ih => rw [drawLights, ih (by simpa using hcc) (by simpa using ha), readByte_drawLight l _ hcc ha]

theorem readByte_faded (n : Nat) {d : ChipDriver} {a : Nat} (hcc : 12 ≤ d.cc)
    (ha : a < offset d.cc 11 ∨ bufLen d.cc ≤ a) : readByte (faded color phase n d).buf a = readByte d.buf a := by
  induction n with
  | zero => rfl
  | succ n ih => rw [faded, readByte_drawLights _ _ (by simpa using hcc) (by simpa using ha), ih]

theorem addresses_drawLights (level : Nat) (ls : List (Fin Config.nLights)) {d : ChipDriver} (hcc : 12 ≤ d.cc)
    (ha : d.buf.map Prod.fst = List.range (bufLen d.cc)) :
    (drawLights color phase level ls d).buf.map Prod.fst = List.range (bufLen d.cc) := by
  induction ls generalizing d with
  | nil => exact ha
  | cons l ls ih => exact ih (by simpa using hcc) (addresses_drawLight l _ hcc ha)

theorem addresses_faded (n : Nat) {d : ChipDriver} (hcc : 12 ≤ d.cc)
    (ha : d.buf.map Prod.fst = List.range (bufLen d.cc)) :
    (faded color phase n d).buf.map Prod.fst = List.range (bufLen d.cc) := by
  induction n with
  | zero => exact ha
  | succ n ih =>
    have := addresses_drawLights (color := color) (phase := phase) n lights (d := faded color phase n d)
      (by simpa using hcc) (by simpa using ih)
    simpa [faded] using this

end Fade

theorem foldl_evolves {α : Type} {f : Progress → α → Progress} (hf : ∀ q a, Progress.Evolves q (f q a)) (l : List α)
    (p : Progress) : p.Evolves (l.foldl f p) := by
  induction l generalizing p with
  | nil => exact .refl p
  | cons a l ih => exact (hf p a).trans (ih _)

/-- The fade keeps what every primitive step keeps, whatever the channel count. -/
theorem fade_evolves (color : Angle → Byte → Byte → Color) (mode : FadeWriteMode) (delay : Nat)
    (phase : Vector Angle Config.nLights) (p : Progress) : p.Evolves (fade color mode delay phase p) := by
  refine foldl_evolves (fun q level => ?_) _ _
  have hl := foldl_evolves (f := fadeLight color mode phase (BitVec.ofNat 8 level)) (fun q l => by
    cases mode
    · exact ((Progress.Evolves.refl q).thenDo (renderLight_evolves _ _)).thenDo emitFrame_evolves
    · exact (Progress.Evolves.refl q).thenDo (renderLight_evolves _ _)) lights q
  cases mode
  · exact hl.thenDo (emitDelay_evolves delay)
  · exact (hl.thenDo emitFrame_evolves).thenDo (emitDelay_evolves delay)

/-! ## The tables -/

/-- Entry `a` of a table built by BUILD_LUT (R144). -/
theorem buildTable_get (value : Angle → Byte) (a : Fin Config.lutLen) :
    (buildTable value)[a] = value (BitVec.ofNat 9 a.val) := by
  simp [buildTable]

/-! ## The tick -/

/-- One tick on a buffer of 12 channels or more does exactly this (R151, R152). -/
theorem tick_eq (t : Luts) (p : Fin Config.lutLen) {d : ChipDriver} (s : State) (hcc : 12 ≤ d.cc) :
    tick t p d s = countDown (advancePhase
      { s with driver := some (drawLight s.idx (lutColor t p) d),
               frames := s.frames ++ [frameOf (drawLight s.idx (lutColor t p) d).buf] }) := by
  rw [tick, renderLight_eq _ _ rfl hcc, thenDo_withDriver rfl, finish_of_none rfl]
  rfl

theorem countDown_last {s : State} (h : s.cnt = 1) :
    countDown s = { s with idx := s.idx + 1, cnt := Config.adv } := by
  simp [countDown, h]

theorem countDown_not_last {s : State} (h : s.cnt ≠ 1) : countDown s = { s with cnt := s.cnt - 1 } := by
  have : ¬ s.cnt - 1 = 0 := by
    intro h0; apply h; rw [← BitVec.sub_add_cancel s.cnt 1, h0]; rfl
  rw [countDown]
  exact if_neg this

/-- The countdown in one equation: it writes IDX and CNT and nothing else (R151, R153). -/
theorem countDown_eq (s : State) : countDown s = { s with
    idx := if s.cnt = 1 then s.idx + 1 else s.idx, cnt := if s.cnt = 1 then Config.adv else s.cnt - 1 } := by
  by_cases h : s.cnt = 1
  · rw [countDown_last h, if_pos h, if_pos h]
  · rw [countDown_not_last h, if_neg h, if_neg h]

/-- A tick that answers a next state was admitted, with tables and a phase that indexes them. -/
theorem execTick_next {s u : State} (h : execTick s = .next u) :
    ∃ d t, TickReady s d t ∧ ∃ hp : s.phase[s.idx].toNat < Config.lutLen,
      u = tick t ⟨s.phase[s.idx].toNat, hp⟩ d s := by
  obtain ⟨hf, hm, d, hd, hb⟩ := admitTick_next h
  cases ht : s.lut with
  | none => simp [ht] at hb
  | some t =>
    simp only [ht] at hb
    split at hb
    · next hp => cases hb; exact ⟨d, t, ⟨hf, hm, hd, ht⟩, hp, rfl⟩
    · cases hb

theorem execTick_of_ready {s : State} {d : ChipDriver} {t : Luts} (h : TickReady s d t)
    (hp : s.phase[s.idx].toNat < Config.lutLen) : execTick s = .next (tick t ⟨s.phase[s.idx].toNat, hp⟩ d s) := by
  rw [execTick, admitTick_of_ready h, h.2.2.2]
  simp only [hp, dif_pos]

end Sys2Proof.Machine
end

