-- ==== Sys2Proof/Laws/Commands.lean ====
section
/-! SUPPORT. Each command on a state that admits it: what exec answers, in terms of the shared operations; and the
encoder's invariant under them. -/

namespace Sys2Proof.Machine

variable {s : State} {d : ChipDriver}

/-! ## On a state that admits the command -/

theorem exec_construct (pin cc : Int) (h : ConstructReady s) (hc : 0 < cc ∧ cc % 12 = 0) :
    exec (.construct pin cc) s = .next { s with driver := some (newDriver cc.toNat) } := by
  rw [exec, execConstruct, admitConstruct_of_ready h, if_neg (by omega)]

theorem exec_construct_bad (pin cc : Int) (h : ConstructReady s) (hc : cc ≤ 0 ∨ cc % 12 ≠ 0) :
    exec (.construct pin cc) s = .next (raiseFault 0x0 .channelCount s) := by
  rw [exec, execConstruct, admitConstruct_of_ready h, if_pos hc]; rfl

theorem exec_setChannel16 (ch v16 : Int) (h : HostReady s d) :
    exec (.setChannel16 ch v16) s = .next (finish 0x1 s (storeChannel .direct16 ch v16 (begin s d))) := by
  rw [exec, execSetChannel16, admitHost_of_ready h]; rfl

theorem exec_ledInstr (form : OperandForm) (i r g b : Int) (h : HostReady s d) :
    exec (ledInstr form i r g b) s =
      .next (finish (codeOf (ledInstr form i r g b)) s (storeLed form i r g b (begin s d))) := by
  cases form <;> exact admitHost_of_ready h _

/-- An LED command on operands in range (R110, R114, R130, R134). -/
theorem exec_ledInstr_inRange (form : OperandForm) {i r g b : Int} (h : HostReady s d)
    (hi : 0 ≤ i ∧ 3 * i + 2 < d.cc) (hr : 0 ≤ r ∧ r ≤ operandMax form) (hg : 0 ≤ g ∧ g ≤ operandMax form)
    (hb : 0 ≤ b ∧ b ≤ operandMax form) :
    exec (ledInstr form i r g b) s = .next { s with
      driver := some (putLed i.toNat (channelValue form r.toNat) (channelValue form g.toNat)
        (channelValue form b.toNat) d) } := by
  rw [exec_ledInstr form i r g b h, storeLed_inRange rfl hi hr hg hb, finish_of_none rfl]; rfl

theorem exec_setBrightness {r g b : Int} (h : HostReady s d)
    (hv : (0 ≤ r ∧ r ≤ 127) ∧ (0 ≤ g ∧ g ≤ 127) ∧ 0 ≤ b ∧ b ≤ 127) :
    exec (.setBrightness r g b) s = .next { s with
      driver := some (setBrightness (BitVec.ofNat 7 r.toNat) (BitVec.ofNat 7 g.toNat)
        (BitVec.ofNat 7 b.toNat) d) } := by
  rw [exec, execSetBrightness, admitHost_of_ready h, if_neg (by omega)]

theorem exec_setBrightness_bad {r g b : Int} (h : HostReady s d)
    (hv : r < 0 ∨ r > 127 ∨ g < 0 ∨ g > 127 ∨ b < 0 ∨ b > 127) :
    exec (.setBrightness r g b) s = .next (raiseFault 0x4 .brightnessValue s) := by
  rw [exec, execSetBrightness, admitHost_of_ready h, if_pos hv]; rfl

theorem exec_write (h : HostReady s d) :
    exec .write s = .next { s with frames := s.frames ++ [frameOf d.buf] } := by
  have hd := h.2.2
  rw [exec, execWrite, admitHost_of_ready h, finish_of_none rfl]
  simp [commit, ← hd]

theorem exec_fadeIn (h : HostReady s d) (hcc : 12 ≤ d.cc) :
    exec .fadeIn s = .next { s with
      driver := some (faded Config.color s.phase Config.fadeLevels d),
      frames := s.frames ++ fadeFrames Config.color Config.fadeWriteMode s.phase Config.fadeLevels d,
      pauses := s.pauses ++ fadePauses Config.fadeWriteMode Config.fadeDelay s.frames.length Config.fadeLevels } := by
  rw [exec, execFadeIn, admitHost_of_ready h, fade, begin, fade_levels _ _ _ _ _ _ hcc]; rfl

theorem exec_buildLut (h : HostReady s d) :
    exec .buildLut s = .next { s with lut := some (buildTables Config.color) } := by
  rw [exec, execBuildLut, admitHost_of_ready h]

theorem exec_arm (h : HostReady s d) (hl : s.lutValid = true) : exec .arm s = .next { s with mode := .steady } := by
  rw [exec, execArm, admitHost_of_ready h, if_pos hl]

/-- One more channel store after a command that is made of channel stores (R84). -/
theorem unlessFaulted_setChannel16 (h : HostReady s d) (c v : Int) {p : Progress} (hf : p.frames = s.frames)
    (hp : p.pauses = s.pauses) :
    unlessFaulted (.next (finish 0x1 s p)) (exec (.setChannel16 c v)) =
      .next (finish 0x1 s (thenDo p (storeChannel .direct16 c v))) := by
  obtain ⟨e, fs, ps, r⟩ := p
  obtain rfl : fs = s.frames := hf
  obtain rfl : ps = s.pauses := hp
  cases r with
  | some code => rw [thenDo_of_some rfl, finish_of_some rfl]; rfl
  | none =>
    have hr : HostReady (commit s ⟨e, s.frames, s.pauses, none⟩) e := ⟨h.1, h.2.1, rfl⟩
    rw [thenDo_of_none rfl, finish_of_none rfl, unlessFaulted]
    simp only [id, commit_fault, h.1, Bool.false_eq_true, if_false]
    rw [exec_setChannel16 c v hr]
    rfl

/-! ## What a next state says: one inversion lemma per command -/

theorem construct_next {pin cc : Int} {t : State} (h : exec (.construct pin cc) s = .next t) :
    ConstructReady s ∧
      ((cc ≤ 0 ∨ cc % 12 ≠ 0) ∧ t = raiseFault 0x0 .channelCount s ∨
        (0 < cc ∧ cc % 12 = 0) ∧ t = { s with driver := some (newDriver cc.toNat) }) := by
  have hr := (admitConstruct_next h).1
  refine ⟨hr, ?_⟩
  by_cases hc : cc ≤ 0 ∨ cc % 12 ≠ 0
  · rw [exec_construct_bad pin cc hr hc] at h
    cases h; exact .inl ⟨hc, rfl⟩
  · rw [exec_construct pin cc hr (by omega)] at h
    cases h; exact .inr ⟨by omega, rfl⟩

theorem setChannel16_next {ch v16 : Int} {t : State} (h : exec (.setChannel16 ch v16) s = .next t) :
    ∃ d, HostReady s d ∧ t = finish 0x1 s (storeChannel .direct16 ch v16 (begin s d)) := by
  obtain ⟨d, hd, hb⟩ := admitHost_next h
  cases hb; exact ⟨d, hd, rfl⟩

theorem ledInstr_next {form : OperandForm} {i r g b : Int} {t : State}
    (h : exec (ledInstr form i r g b) s = .next t) :
    ∃ d, HostReady s d ∧
      t = finish (codeOf (ledInstr form i r g b)) s (storeLed form i r g b (begin s d)) := by
  cases form <;>
  · obtain ⟨d, hd, hb⟩ := admitHost_next h
    cases hb; exact ⟨d, hd, rfl⟩

theorem setBrightness_next {r g b : Int} {t : State} (h : exec (.setBrightness r g b) s = .next t) :
    ∃ d, HostReady s d ∧
      (t = raiseFault 0x4 .brightnessValue s ∨ ∃ r' g' b', t = { s with driver := some (setBrightness r' g' b' d) }) := by
  obtain ⟨d, hd, hb⟩ := admitHost_next h
  refine ⟨d, hd, ?_⟩
  split at hb
  · cases hb; exact .inl rfl
  · cases hb; exact .inr ⟨_, _, _, rfl⟩

theorem write_next {t : State} (h : exec .write s = .next t) :
    ∃ d, HostReady s d ∧ t = { s with frames := s.frames ++ [frameOf d.buf] } := by
  obtain ⟨d, hd, -⟩ := admitHost_next h
  rw [exec_write hd] at h
  cases h; exact ⟨d, hd, rfl⟩

theorem fadeIn_next {t : State} (h : exec .fadeIn s = .next t) :
    ∃ d, HostReady s d ∧ t = finish 0x8 s
      (fade Config.color Config.fadeWriteMode Config.fadeDelay s.phase (begin s d)) := by
  obtain ⟨d, hd, hb⟩ := admitHost_next h
  cases hb; exact ⟨d, hd, rfl⟩

theorem buildLut_next {t : State} (h : exec .buildLut s = .next t) :
    ∃ d, HostReady s d ∧ t = { s with lut := some (buildTables Config.color) } := by
  obtain ⟨d, hd, hb⟩ := admitHost_next h
  cases hb; exact ⟨d, hd, rfl⟩

theorem arm_next {t : State} (h : exec .arm s = .next t) :
    ∃ d, HostReady s d ∧ s.lutValid = true ∧ t = { s with mode := .steady } := by
  obtain ⟨d, hd, hb⟩ := admitHost_next h
  split at hb
  · next hl => cases hb; exact ⟨d, hd, hl, rfl⟩
  · cases hb

theorem tick_next {u : State} (h : exec .tick s = .next u) :
    ∃ d t, TickReady s d t ∧ ∃ hp : s.phase[s.idx].toNat < Config.lutLen,
      u = tick t ⟨s.phase[s.idx].toNat, hp⟩ d s := execTick_next h

/-- What a next state of a step says: a power-on, a wait, or the next command's own next state (R16, R190, R191). -/
theorem step_next {t : State} (h : step s = .next t) :
    (∃ rest, s.inbox = .powerOn :: rest ∧ t = powerOn rest) ∨ (s.inbox = [] ∧ s.fault = false ∧ t = s) ∨
    ∃ tr rest i, s.inbox = .command tr :: rest ∧ s.fault = false ∧ decode tr = .ok i ∧
      exec i { s with inbox := rest } = .next t := by
  unfold step deliver at h
  cases hi : s.inbox with
  | nil =>
    cases hf : s.fault <;> simp [hi, hf] at h
    exact .inr (.inl ⟨rfl, rfl, h.symm⟩)
  | cons a rest =>
    cases a with
    | powerOn => simp [hi] at h; exact .inl ⟨rest, rfl, h.symm⟩
    | command tr =>
      cases hf : s.fault <;> simp [hi, hf] at h
      cases hd : decode tr <;> simp [hd] at h
      exact .inr (.inr ⟨tr, rest, _, rfl, rfl, hd, h⟩)

/-! ## What the end of a command keeps, fault or no fault -/

/-- The end of a host command writes the encoder, the outputs and the fault record, and nothing else. -/
theorem finish_keeps (op : Code) (s : State) (p : Progress) :
    (finish op s p).driver = some p.driver ∧ (finish op s p).frames = p.frames ∧
    (finish op s p).pauses = p.pauses ∧ (finish op s p).phase = s.phase ∧ (finish op s p).idx = s.idx ∧
    (finish op s p).cnt = s.cnt ∧ (finish op s p).lut = s.lut ∧ (finish op s p).mode = s.mode ∧
    (finish op s p).inbox = s.inbox := by
  cases h : p.raised with
  | none => rw [finish_of_none h]; exact ⟨rfl, rfl, rfl, rfl, rfl, rfl, rfl, rfl, rfl⟩
  | some c => rw [finish_of_some h]; exact ⟨rfl, rfl, rfl, rfl, rfl, rfl, rfl, rfl, rfl⟩

/-! ## The encoder's invariant -/

theorem newDriver_inv {cc : Nat} (h : 0 < cc) (h12 : cc % 12 = 0) : DriverInv (newDriver cc) where
  ccPos := h
  ccMultiple := h12
  addresses := by
    rw [newDriver, setBrightness_buf, addresses_memWrite_of_mem (createBuffer_wf cc), addresses_createBuffer]
    · rfl
    · intro j hj; simp only [addresses_createBuffer, List.mem_range, bufLen]; omega
  header := by
    rw [newDriver, setBrightness_buf, memRead_memWrite, Nat.mod_eq_of_lt (hdr_lt _ _ _)]; rfl

theorem setBrightness_inv (r g b : Brightness) (h : DriverInv d) : DriverInv (setBrightness r g b d) where
  ccPos := h.ccPos
  ccMultiple := h.ccMultiple
  addresses := by
    rw [setBrightness_buf, addresses_memWrite_of_mem (wf_of_addresses h.addresses), h.addresses]
    · rfl
    · intro j hj; rw [h.addresses]; simp only [List.mem_range, bufLen]; omega
  header := by
    rw [setBrightness_buf, memRead_memWrite, Nat.mod_eq_of_lt (hdr_lt _ _ _)]; rfl

/-- The primitive steps keep the encoder's invariant. -/
theorem Progress.Evolves.driverInv {p q : Progress} (h : p.Evolves q) (hd : DriverInv p.driver) :
    DriverInv q.driver where
  ccPos := by rw [h.cc]; exact hd.ccPos
  ccMultiple := by rw [h.cc]; exact hd.ccMultiple
  addresses := by rw [h.cc]; exact h.addresses hd.addresses
  header := by
    rw [h.bcR, h.bcG, h.bcB, ← hd.header]
    exact memRead_congr fun j hj => by simpa using h.header j (by omega)

theorem twelve_le_cc (h : DriverInv d) : 12 ≤ d.cc := by
  have := h.ccPos; have := h.ccMultiple; omega

/-! ## Reading a frame -/

/-- A receiver reads in the frame what the buffer holds (R77). -/
theorem frameChannel_frameOf (h : d.buf.map Prod.fst = List.range (bufLen d.cc)) (ch : Nat) :
    frameChannel d.cc (frameOf d.buf) ch = channel d ch := by
  simp only [frameChannel, channel, frameOf_getElem h, memRead, Nat.add_zero]
  cases readByte d.buf (offset d.cc ch) with
  | none => rfl
  | some hi =>
    cases readByte d.buf (offset d.cc ch + 1) with
    | none => rfl
    | some lo =>
      simp only [Option.some.injEq]
      rw [← Nat.shiftLeft_add_eq_or_of_lt lo.isLt]
      simp [Nat.shiftLeft_eq]; ring

/-- Every address of the buffer has a byte. -/
theorem readByte_isSome {m : Memory} {n k : Nat} (h : m.map Prod.fst = List.range n) (hk : k < n) :
    ∃ b, readByte m k = some b := by
  rw [← frameOf_getElem h]
  exact ⟨_, List.getElem?_eq_getElem (by rw [frameOf_length h]; exact hk)⟩

end Sys2Proof.Machine
end

