-- ==== Sys2Proof/Laws/PerInstr.lean ====
section
/-! SUPPORT. The command table, row by row: the code and the operand count `encode` gives a command are those its
row of 30_encoding.md R80 gives it. -/

namespace Sys2Proof.Laws.TableRow

/-- The transaction of a command has an assigned code and as many operands as that code takes. -/
def Statement (i : Instr) : Prop :=
  (encode i).op.toNat < 0xC ∧ operandCount (encode i).op = some (encode i).args.length

theorem construct (pin cc : Int) : Statement (.construct pin cc) := by simp [Statement, encode, codeOf, operandsOf, operandCount]
theorem setChannel16 (ch v16 : Int) : Statement (.setChannel16 ch v16) := by simp [Statement, encode, codeOf, operandsOf, operandCount]
theorem setLed16 (i r16 g16 b16 : Int) : Statement (.setLed16 i r16 g16 b16) := by simp [Statement, encode, codeOf, operandsOf, operandCount]
theorem setLed8 (i r8 g8 b8 : Int) : Statement (.setLed8 i r8 g8 b8) := by simp [Statement, encode, codeOf, operandsOf, operandCount]
theorem setBrightness (r7 g7 b7 : Int) : Statement (.setBrightness r7 g7 b7) := by simp [Statement, encode, codeOf, operandsOf, operandCount]
theorem write : Statement .write := by simp [Statement, encode, codeOf, operandsOf, operandCount]
theorem ledsSet16 (i r16 g16 b16 : Int) : Statement (.ledsSet16 i r16 g16 b16) := by simp [Statement, encode, codeOf, operandsOf, operandCount]
theorem ledsSet8 (i r8 g8 b8 : Int) : Statement (.ledsSet8 i r8 g8 b8) := by simp [Statement, encode, codeOf, operandsOf, operandCount]
theorem fadeIn : Statement .fadeIn := by simp [Statement, encode, codeOf, operandsOf, operandCount]
theorem buildLut : Statement .buildLut := by simp [Statement, encode, codeOf, operandsOf, operandCount]
theorem arm : Statement .arm := by simp [Statement, encode, codeOf, operandsOf, operandCount]
theorem tick : Statement .tick := by simp [Statement, encode, codeOf, operandsOf, operandCount]

end Sys2Proof.Laws.TableRow
end

