-- ==== Sys2Proof/Tests/Slice0.lean ====
section
/-! SUPPORT. Tests of the model against the vectors of 95_test_vectors.md (their ids stand beside the tests) and the
command table R80; and, for every obligation with hypotheses, states and operands that meet them. -/

namespace Sys2Proof.Tests

open Sys2Proof Sys2Proof.Machine

/-! ## Helpers -/

/-- What a test reads of an answer; none unless it is a next state. -/
def after {α : Type} (r : Result) (f : State → α) : Option α :=
  match r with
  | .next s => some (f s)
  | .fault _ => none
  | .refused _ => none

/-- `n` bytes of the buffer from address `a` on, as numbers. -/
def bytes (a n : Nat) (s : State) : List (Option Nat) :=
  match s.driver with
  | some d => (List.range n).map fun k => (readByte d.buf (a + k)).map (·.toNat)
  | none => []

/-- The fault record as numbers: FAULT_CODE and FAULT_OP (R172). -/
def record (s : State) : Bool × Nat × Nat := (s.fault, s.faultCode.number, s.faultOp.toNat)

/-- The state after CONSTRUCT 0, 12. -/
def ready : State := { State.reset with driver := some (newDriver 12) }

/-- The test colour function COLOR_T of 95_test_vectors.md. -/
def colorT (a : Angle) (_s v : Byte) : Color := ⟨BitVec.ofNat 8 a.toNat, v, 255#8 - v⟩

/-- A steady state with COLOR_T's tables (R144 with the test colours). -/
def steadyT : State := { ready with lut := some (buildTables colorT), mode := .steady }

/-- A steady state of the block itself. -/
def steady : State := { ready with lut := some (buildTables Config.color), mode := .steady }

/-- A faulted state: SET_CHANNEL_16 5, 65536 after CONSTRUCT (V3). -/
def faulted : State := { ready with fault := true, faultCode := .pwmValue, faultOp := 0x1 }

/-! ## Encoding: words written out from the command table R80 -/

theorem test_decode_construct : decode ⟨0b0000#4, [7, 24]⟩ = .ok (.construct 7 24) := by decide
theorem test_decode_setChannel16 : decode ⟨0b0001#4, [11, 0xABCD]⟩ = .ok (.setChannel16 11 0xABCD) := by decide
theorem test_decode_setLed16 : decode ⟨0b0010#4, [1, 2, 3, 4]⟩ = .ok (.setLed16 1 2 3 4) := by decide
theorem test_decode_setLed8 : decode ⟨0b0011#4, [1, 18, 0, 255]⟩ = .ok (.setLed8 1 18 0 255) := by decide
theorem test_decode_setBrightness : decode ⟨0b0100#4, [85, 42, 21]⟩ = .ok (.setBrightness 85 42 21) := by decide
theorem test_decode_write : decode ⟨0b0101#4, []⟩ = .ok .write := by decide
theorem test_decode_ledsSet16 : decode ⟨0b0110#4, [4, 0, 65535, 255]⟩ = .ok (.ledsSet16 4 0 65535 255) := by decide
theorem test_decode_ledsSet8 : decode ⟨0b0111#4, [7, 1, 2, 3]⟩ = .ok (.ledsSet8 7 1 2 3) := by decide
theorem test_decode_fadeIn : decode ⟨0b1000#4, []⟩ = .ok .fadeIn := by decide
theorem test_decode_buildLut : decode ⟨0b1001#4, []⟩ = .ok .buildLut := by decide
theorem test_decode_arm : decode ⟨0b1010#4, []⟩ = .ok .arm := by decide
theorem test_decode_tick : decode ⟨0b1011#4, []⟩ = .ok .tick := by decide

/-- R81: the reserved codes, and wrong operand counts either way. -/
theorem test_decode_rejects :
    decode ⟨0xC#4, []⟩ = .error .undefinedOp ∧ decode ⟨0xF#4, [1, 2]⟩ = .error .undefinedOp ∧
    decode ⟨0x1#4, [0]⟩ = .error .badArity ∧ decode ⟨0xB#4, [0]⟩ = .error .badArity ∧
    decode ⟨0x4#4, []⟩ = .error .badArity := by decide

/-- Every row of opcode_table.json, its operands zeros, and the reserved codes. -/
theorem test_decodeTableWord :
    (List.range 16).map (decodeTableWord 8) =
      [some (.construct 0 0), some (.setChannel16 0 0), some (.setLed16 0 0 0 0), some (.setLed8 0 0 0 0),
       some (.setBrightness 0 0 0), some .write, some (.ledsSet16 0 0 0 0), some (.ledsSet8 0 0 0 0), some .fadeIn,
       some .buildLut, some .arm, some .tick, none, none, none, none] ∧ decodeTableWord 8 0x15 = none := by decide

/-- The first step after reset on two rows' words: CONSTRUCT 0, 0 takes its fault (V2), WRITE is refused (V15). -/
theorem test_withFetchWord_runs :
    after (step (State.reset.withFetchWord 8 0x0)) record = some (true, 1, 0x0) ∧
    step (State.reset.withFetchWord 8 0x5) = .refused .notConstructed := ⟨by decide, rfl⟩

/-! ## Well-formed commands: an ill-formed term for each check (the contracts of 40_chipdriver.md) -/

theorem test_wellFormed_accepts :
    (Instr.construct 0 12).wellFormed = true ∧ (Instr.setChannel16 0 65535).wellFormed = true ∧
    (Instr.setLed16 0 0 0 65535).wellFormed = true ∧ (Instr.setLed8 0 255 255 255).wellFormed = true ∧
    (Instr.setBrightness 127 127 127).wellFormed = true ∧ (Instr.ledsSet16 3 65535 0 0).wellFormed = true ∧
    (Instr.ledsSet8 3 0 0 255).wellFormed = true ∧ Instr.write.wellFormed = true := by decide

theorem test_wellFormed_refuses_counts :
    (Instr.construct 0 0).wellFormed = false ∧ (Instr.construct 0 (-12)).wellFormed = false ∧
    (Instr.construct 0 13).wellFormed = false := by decide

theorem test_wellFormed_refuses_numbers :
    (Instr.setChannel16 (-1) 0).wellFormed = false ∧ (Instr.setLed16 (-1) 0 0 0).wellFormed = false ∧
    (Instr.setLed8 (-1) 0 0 0).wellFormed = false ∧ (Instr.ledsSet16 (-1) 0 0 0).wellFormed = false ∧
    (Instr.ledsSet8 (-1) 0 0 0).wellFormed = false := by decide

theorem test_wellFormed_refuses_values :
    (Instr.setChannel16 0 65536).wellFormed = false ∧ (Instr.setChannel16 0 (-1)).wellFormed = false ∧
    (Instr.setLed16 0 65536 0 0).wellFormed = false ∧ (Instr.setLed16 0 0 (-1) 0).wellFormed = false ∧
    (Instr.setLed8 0 0 0 256).wellFormed = false ∧ (Instr.setBrightness 128 0 0).wellFormed = false ∧
    (Instr.setBrightness 0 0 (-1)).wellFormed = false ∧ (Instr.ledsSet16 0 0 65536 0).wellFormed = false ∧
    (Instr.ledsSet8 0 0 256 0).wellFormed = false := by decide

/-! ## The wire format -/

/-- V1. -/
theorem test_offsets : (List.range 12).map (offset 12) = [26, 24, 22, 20, 18, 16, 14, 12, 10, 8, 6, 4] ∧
    [offset 24 0, offset 24 11, offset 24 12, offset 24 23] = [50, 28, 26, 4] := by decide

/-- V6, with T = 0x4B6 (GK1), as MAGIC5 = 0x9 and CFG7 = 0x36: the whole column. -/
theorem test_header_words :
    [hdrOf 0x9 0x36 0x7F 0x7F 0x7F, hdrOf 0x9 0x36 0 0 0, hdrOf 0x9 0x36 1 2 3, hdrOf 0x9 0x36 0x7F 0 0,
     hdrOf 0x9 0x36 0 0x7F 0, hdrOf 0x9 0x36 0 0 0x7F, hdrOf 0x9 0x36 0x55 0x2A 0x15] =
    [0x96DFFFFF, 0x96C00000, 0x96C04103, 0x96DFC000, 0x96C03F80, 0x96C0007F, 0x96D55515] := by decide

/-! ## One or two vectors per command -/

/-- V2: CONSTRUCT 7, 12. -/
theorem test_construct :
    after (exec (.construct 7 12) State.reset) (bytes 4 25) = some (List.replicate 24 (some 0) ++ [none]) := by decide

/-- V2: the counts that fault, and a second CONSTRUCT. -/
theorem test_construct_faults :
    ([0, -12, 6, 13] : List Int).map (fun cc => after (exec (.construct 0 cc) State.reset) record) =
      List.replicate 4 (some (true, 1, 0x0)) ∧
    exec (.construct 0 12) ready = .refused .reconstruct := ⟨by decide, rfl⟩

/-- V3: 11, 0xABCD and 0, 0x1234, and the neighbours' bytes. -/
theorem test_setChannel16 :
    after (exec (.setChannel16 11 0xABCD) ready) (bytes 4 3) = some [some 0xAB, some 0xCD, some 0] ∧
    after (exec (.setChannel16 0 0x1234) ready) (bytes 25 4) = some [some 0, some 0x12, some 0x34, none] := by decide

/-- V3: the faults; the channel is checked first. -/
theorem test_setChannel16_faults :
    after (exec (.setChannel16 5 65536) ready) record = some (true, 3, 0x1) ∧
    after (exec (.setChannel16 (-1) 0) ready) record = some (true, 2, 0x1) ∧
    after (exec (.setChannel16 12 70000) ready) record = some (true, 2, 0x1) := by decide

/-- V4: 1, 0x1111, 0x2222, 0x3333. -/
theorem test_setLed16 : after (exec (.setLed16 1 0x1111 0x2222 0x3333) ready) (bytes 16 6) =
    some [some 0x33, some 0x33, some 0x22, some 0x22, some 0x11, some 0x11] := by decide

/-- V4: the red channel stays written when the green value faults. -/
theorem test_setLed16_faults :
    after (exec (.setLed16 0 0x1111 0x10000 0x3333) ready) (fun s => (record s, bytes 22 6 s)) =
      some ((true, 3, 0x2), [some 0, some 0, some 0, some 0, some 0x11, some 0x11]) ∧
    after (exec (.setLed16 4 0 0 0) ready) record = some (true, 2, 0x2) := by decide

/-- V5: 2, 0x80, 0x01, 0x00. -/
theorem test_setLed8 : after (exec (.setLed8 2 0x80 0x01 0) ready) (bytes 10 6) =
    some [some 0, some 0, some 1, some 1, some 0x80, some 0x80] := by decide

/-- V5: 0, 1, -1, 0. -/
theorem test_setLed8_faults :
    after (exec (.setLed8 0 1 (-1) 0) ready) (fun s => (record s, bytes 22 6 s)) =
      some ((true, 3, 0x3), [some 0, some 0, some 0, some 0, some 1, some 1]) := by decide

/-- V6: the last two header bytes of 0x55, 0x2A, 0x15, and the first data byte. -/
theorem test_setBrightness : after (exec (.setBrightness 0x55 0x2A 0x15) ready) (bytes 4 1) = some [some 0] ∧
    after (exec (.setBrightness 0x55 0x2A 0x15) ready) (fun s => s.driver.map fun d => (d.bcR, d.bcG, d.bcB)) =
      some (some (0x55, 0x2A, 0x15)) := by decide

/-- V6: 0x7F, 0x7F, 200. -/
theorem test_setBrightness_faults : after (exec (.setBrightness 0x7F 0x7F 200) ready) record = some (true, 4, 0x4) :=
  by decide

/-- V7: WRITE right after CONSTRUCT sends 28 bytes, and the last is a data byte. -/
theorem test_write : after (exec .write ready) (fun s => s.frames.map fun f => (f.length, f[27]?)) =
    some [(28, some 0)] := by decide

/-- V8: LEDS_SET_16 0, 0, 65535, 0x1234. -/
theorem test_ledsSet16 : after (exec (.ledsSet16 0 0 65535 0x1234) ready) (bytes 22 6) =
    some [some 0xED, some 0xCB, some 0, some 0, some 0xFF, some 0xFF] := by decide

/-- V8: the check is on the operand, before the inversion. -/
theorem test_ledsSet16_faults : after (exec (.ledsSet16 0 65536 0 0) ready) record = some (true, 3, 0x6) := by decide

/-- V8: LEDS_SET_8 0, 255, 0, 0x40. -/
theorem test_ledsSet8 : after (exec (.ledsSet8 0 255 0 0x40) ready) (bytes 22 6) =
    some [some 0xBF, some 0xBF, some 0xFF, some 0xFF, some 0, some 0] := by decide

/-- V8: LEDS_SET_8 0, 256, 0, 0. -/
theorem test_ledsSet8_faults : after (exec (.ledsSet8 0 256 0 0) ready) record = some (true, 3, 0x7) := by decide

/-- V9: the first frame of the fade, in PER_LIGHT mode with COLOR_T. -/
theorem test_fadeIn_first_frame :
    ((fadeLight colorT .perLight State.reset.phase 0#8 (begin ready (newDriver 12)) 0).frames.map (List.drop 4)) =
      [List.replicate 18 0x00#8 ++ [0x00#8, 0x00#8, 0xFF#8, 0xFF#8, 0xFF#8, 0xFF#8]] := by decide

/-- V9: the channels after the last level, 254. -/
theorem test_fadeIn_end :
    (frameOf (fadeLevel colorT .perLevel 0 State.reset.phase (begin ready (newDriver 12)) 254).driver.buf).drop 4 =
      [0xFE#8, 0xFE#8, 0x01#8, 0x01#8, 0x4B#8, 0x4B#8, 0xFE#8, 0xFE#8, 0x01#8, 0x01#8, 0xB5#8, 0xB5#8,
       0xFE#8, 0xFE#8, 0x01#8, 0x01#8, 0xDA#8, 0xDA#8, 0xFE#8, 0xFE#8, 0x01#8, 0x01#8, 0xFF#8, 0xFF#8] := by decide

/-- V10, with COLOR_T. -/
theorem test_buildLut :
    [(buildTables colorT).r[255], (buildTables colorT).r[256], (buildTables colorT).r[300],
     (buildTables colorT).r[359], (buildTables colorT).g[17], (buildTables colorT).b[17]] =
      [255#8, 0#8, 44#8, 103#8, 255#8, 0#8] := by decide

/-- V11. -/
theorem test_arm : after (exec .arm { ready with lut := some (buildTables colorT) }) (·.mode) = some .steady ∧
    exec .arm ready = .refused .lutNotBuilt ∧ exec .arm steadyT = .refused .hostInSteady := ⟨by decide, rfl, rfl⟩

/-- V12, rows two and five: IDX moves on at the last count, and wraps. -/
theorem test_tick_advances :
    after (exec .tick { steadyT with cnt := 1, phase := #v[25, 37, 74, 180] })
      (fun s => (s.idx, s.cnt, s.phase)) = some (1, 26, #v[26, 37, 74, 180]) ∧
    after (exec .tick { steadyT with idx := 3, cnt := 1, phase := #v[25, 37, 74, 359] })
      (fun s => (s.idx, s.cnt, s.phase)) = some (0, 26, #v[25, 37, 74, 0]) := by decide

/-- V13: COLOR_T at phase 25, light 0, in the frame. -/
theorem test_tick_renders :
    after (exec .tick { steadyT with phase := #v[25, 37, 74, 180] }) (fun s => s.frames.map (List.drop 22)) =
      some [[0xFF#8, 0xFF#8, 0x00#8, 0x00#8, 0xE6#8, 0xE6#8]] := by decide

/-- V15. -/
theorem test_refusals :
    exec .write State.reset = .refused .notConstructed ∧ exec .tick State.reset = .refused .tickInSetup ∧
    exec (.setChannel16 0 0) steadyT = .refused .hostInSteady ∧
    step (present ⟨0xC, []⟩ steadyT) = .refused .undefinedOp ∧
    step (present ⟨0x1, [0]⟩ ready) = .refused .badArity ∧
    step (present ⟨0x5, []⟩ faulted) = .fault .faulted ∧ exec .tick faulted = .fault .faulted :=
  ⟨rfl, rfl, rfl, rfl, rfl, rfl, rfl⟩

/-! ## Witnesses: states and operands that meet the hypotheses of each obligation -/

theorem ready_hostReady : HostReady ready (newDriver 12) := ⟨rfl, rfl, rfl⟩
theorem reset_constructReady : ConstructReady State.reset := ⟨rfl, rfl, rfl⟩
theorem steady_tickReady : TickReady steady (newDriver 12) (buildTables Config.color) := ⟨rfl, rfl, rfl, rfl⟩
theorem newDriver12_inv : DriverInv (newDriver 12) := newDriver_inv (by decide) (by decide)

/-- The invariant of a state that holds CONSTRUCT's encoder and the reset value of the sequencer's registers. -/
theorem constructed_inv {s : State} (hd : s.driver = some (newDriver 12)) (hf : s.frames = [])
    (hp : s.phase = State.reset.phase) (hc : s.cnt = 26) (ht : ∀ t, s.lut = some t → t = buildTables Config.color)
    (hm : s.mode = .steady → s.lutValid = true ∧ s.fault = false) (hr : s.fault = false ↔ s.faultCode = .none) :
    Inv s where
  driver d h := by rw [hd] at h; cases h; exact newDriver12_inv
  frames d _ f h := by rw [hf] at h; cases h
  noFrames := by simp [hd]
  phase := by rw [hp]; decide
  count := by rw [hc]; decide
  tables := ht
  steady h := ⟨by simp [State.constructed, hd], (hm h).1⟩
  noFault h := (hm h).2
  record := hr

theorem reset_inv : Inv State.reset where
  driver _ h := by cases h
  frames _ h := by cases h
  noFrames _ := rfl
  phase := by decide
  count := by decide
  tables _ h := by cases h
  steady h := by cases h
  noFault h := by cases h
  record := by decide

theorem ready_inv : Inv ready :=
  constructed_inv rfl rfl rfl rfl (fun _ h => by cases h) (fun h => by cases h) (by decide)

theorem steady_inv : Inv steady :=
  constructed_inv rfl rfl rfl rfl (fun _ h => by cases h; rfl) (fun _ => ⟨rfl, rfl⟩) (by decide)

theorem faulted_inv : Inv faulted :=
  constructed_inv rfl rfl rfl rfl (fun _ h => by cases h) (fun h => by cases h) (by decide)

theorem steady_ticks : ∃ t, step (present ⟨0xB, []⟩ steady) = .next t :=
  ⟨_, (show step (present ⟨0xB, []⟩ steady) = execTick steady from rfl).trans
    (execTick_of_ready steady_tickReady (by decide))⟩

theorem witness_StepRunsTheDecodedCommand :
    (present ⟨0x5, []⟩ ready).inbox = .command ⟨0x5, []⟩ :: [] ∧ (present ⟨0x5, []⟩ ready).fault = false ∧
    decode ⟨0x5, []⟩ = .ok .write := ⟨rfl, rfl, rfl⟩

/-- One state for each of the six clauses. -/
theorem witness_StepWaitsResetsRefusesOrStops :
    ((present ⟨0x5, []⟩ faulted).inbox = .command ⟨0x5, []⟩ :: [] ∧ (present ⟨0x5, []⟩ faulted).fault = true) ∧
    (present ⟨0xC, []⟩ ready).fault = false ∧ decode ⟨0xC, []⟩ = .error .undefinedOp ∧
    (present ⟨0xB, [0]⟩ ready).fault = false ∧ decode ⟨0xB, [0]⟩ = .error .badArity ∧
    ({ faulted with inbox := [.powerOn] } : State).inbox = .powerOn :: [] ∧
    (ready.inbox = [] ∧ ready.fault = false) ∧ faulted.inbox = [] ∧ faulted.fault = true :=
  ⟨⟨rfl, rfl⟩, rfl, rfl, rfl, rfl, rfl, ⟨rfl, rfl⟩, rfl, rfl⟩

theorem witness_StepRunsAnOpcodeTableWord : ready.fault = false ∧ decodeTableWord 8 0xB = some .tick := ⟨rfl, rfl⟩

/-- Both sides of the boundary 0xB, 0xC, and both kinds of wrong count. -/
theorem witness_ReservedCodesAndWrongCountsAreRejected :
    0xC ≤ (0xC : Code).toNat ∧ ((0xB : Code).toNat < 0xC ∧ operandCount 0xB ≠ some [(0 : Int)].length) ∧
    (0x0 : Code).toNat < 0xC ∧ operandCount 0x0 ≠ some ([] : List Int).length := by decide

/-- The boundaries of the ranges, and two header constants that differ in the bit that is dropped. -/
theorem witness_HelperFunctionsAreTheSpecs : (11 < 12 ∧ 0 < 12) ∧ rep8 255 = 0xFFFF ∧ inv8 0 = 255 ∧ inv16 65535 = 0 := by
  decide

theorem witness_HeaderBytesAreTheSpecs :
    (0x19#5 : BitVec 5).toNat % 16 * 128 + (0x36#7 : BitVec 7).toNat =
      (0x09#5 : BitVec 5).toNat % 16 * 128 + (0x36#7 : BitVec 7).toNat := by decide

theorem witness_ChannelsTileTheDataBytes :
    0 < 12 ∧ 10 + 1 < 12 ∧ 11 < 12 ∧ byteOfChannel 12 11 4 ∧ byteOfChannel 12 0 27 ∧ 4 ≤ 27 ∧ 27 < bufLen 12 := by
  simp [byteOfChannel, offset, bufLen]

theorem witness_FrameCarriesHeaderAndEveryChannel : DriverInv (newDriver 12) ∧ 11 < (newDriver 12).cc :=
  ⟨newDriver12_inv, by decide⟩

theorem witness_ConstructCreatesTheEncoder : ConstructReady State.reset ∧ (0 : Int) < 12 ∧ (12 : Int) % 12 = 0 :=
  ⟨reset_constructReady, by decide, by decide⟩

theorem witness_ConstructFaultsOnABadCount :
    ConstructReady State.reset ∧ (0 : Int) ≤ 0 ∧ (13 : Int) % 12 ≠ 0 := ⟨reset_constructReady, by decide, by decide⟩

theorem witness_SetChannelStoresOneChannelOnly :
    HostReady ready (newDriver 12) ∧ (0 : Int) ≤ 11 ∧ (11 : Int) < (newDriver 12).cc ∧ (0 : Int) ≤ 65535 :=
  ⟨ready_hostReady, by decide, by decide, by decide⟩

theorem witness_SetChannelElevenFillsBytesFourAndFive : HostReady ready (newDriver 12) ∧ (newDriver 12).cc = 12 :=
  ⟨ready_hostReady, rfl⟩

/-- Both bad channels and both bad values, at the boundaries. -/
theorem witness_SetChannelFaultsWriteNothing :
    HostReady ready (newDriver 12) ∧ (-1 : Int) < 0 ∧ (12 : Int) ≥ (newDriver 12).cc ∧ (11 : Int) < (newDriver 12).cc ∧
    (65536 : Int) > 65535 := ⟨ready_hostReady, by decide, by decide, by decide, by decide⟩

theorem witness_SetLed16IsThreeChannelWrites : HostReady ready (newDriver 12) := ready_hostReady

theorem witness_SetLed16StoresTheValues : HostReady ready (newDriver 12) ∧ (0 : Int) ≤ 3 ∧
    3 * (3 : Int) + 2 < (newDriver 12).cc ∧ componentsInRange 65535 0 65535 1 = true :=
  ⟨ready_hostReady, by decide, by decide, by decide⟩

theorem witness_SetLed8StoresReplicatedValues : HostReady ready (newDriver 12) ∧ (0 : Int) ≤ 3 ∧
    3 * (3 : Int) + 2 < (newDriver 12).cc ∧ componentsInRange 255 0 255 1 = true :=
  ⟨ready_hostReady, by decide, by decide, by decide⟩

theorem witness_LedsSet16StoresInvertedValues : HostReady ready (newDriver 12) ∧ (0 : Int) ≤ 0 ∧
    3 * (0 : Int) + 2 < (newDriver 12).cc ∧ componentsInRange 65535 65535 0 1 = true :=
  ⟨ready_hostReady, by decide, by decide, by decide⟩

theorem witness_LedsSet8StoresInvertedReplicatedValues : HostReady ready (newDriver 12) ∧ (0 : Int) ≤ 0 ∧
    3 * (0 : Int) + 2 < (newDriver 12).cc ∧ componentsInRange 255 255 0 1 = true :=
  ⟨ready_hostReady, by decide, by decide, by decide⟩

/-- Each clause at a boundary: the indexes -1 and 4, and a value one too large in each component. -/
theorem witness_LedFaultsKeepTheEarlierChannels :
    HostReady ready (newDriver 12) ∧ (newDriver 12).cc % 12 = 0 ∧ (-1 : Int) < 0 ∧
    3 * (4 : Int) + 2 ≥ (newDriver 12).cc ∧ 3 * (3 : Int) + 2 < (newDriver 12).cc ∧
    inRange 65535 65536 = false ∧ inRange 255 256 = false ∧ inRange 255 (-1) = false ∧ inRange 255 255 = true :=
  ⟨ready_hostReady, by decide, by decide, by decide, by decide, by decide, by decide, by decide, by decide⟩

theorem witness_SetLed8IsSetLed16OfReplicatedValues : (255 : Nat) ≤ 255 ∧ (0 : Nat) ≤ 255 ∧
    after (exec (.setLed8 0 255 0 1) ready) (·.fault) = some false := by decide

theorem witness_InversionCommutesWithReplication : (255 : Nat) ≤ 255 ∧ (0 : Nat) ≤ 255 ∧
    after (exec (.ledsSet8 0 255 0 1) ready) (·.fault) = some false := by decide

theorem witness_SetBrightnessRewritesTheHeader : HostReady ready (newDriver 12) ∧
    componentsInRange 127 0 127 1 = true ∧ componentsInRange 127 0 0 128 = false ∧ componentsInRange 127 (-1) 0 0 = false :=
  ⟨ready_hostReady, by decide, by decide, by decide⟩

theorem witness_SettingTheSameBrightnessChangesNothing :
    (HostReady ready (newDriver 12) ∧ DriverInv (newDriver 12)) ∧ ConstructReady State.reset ∧ (0 : Int) < 12 ∧
    (12 : Int) % 12 = 0 ∧ exec (.construct 0 12) State.reset = .next ready :=
  ⟨⟨ready_hostReady, newDriver12_inv⟩, reset_constructReady, by decide, by decide,
    exec_construct 0 12 reset_constructReady (by decide)⟩

theorem witness_WriteTransmitsTheWholeBuffer : HostReady ready (newDriver 12) ∧
    (newDriver 12).buf.map Prod.fst = List.range (bufLen (newDriver 12).cc) ∧ 27 < bufLen (newDriver 12).cc :=
  ⟨ready_hostReady, newDriver12_inv.addresses, by decide⟩

theorem witness_TwoWritesEmitIdenticalFrames : HostReady ready (newDriver 12) := ready_hostReady

theorem witness_FadeInEndsAtLevel254 : HostReady ready (newDriver 12) ∧ DriverInv (newDriver 12) :=
  ⟨ready_hostReady, newDriver12_inv⟩

/-- The first and the last level and light; the mode is one of the two. -/
theorem witness_FadeInFramesRampLightByLight : HostReady ready (newDriver 12) ∧ DriverInv (newDriver 12) ∧
    (∃ t, exec .fadeIn ready = .next t) ∧ (Config.fadeWriteMode = .perLight ∨ Config.fadeWriteMode = .perLevel) ∧
    0 < 255 ∧ 254 < 255 ∧ (0 : Fin Config.nLights).val < (3 : Fin Config.nLights).val :=
  ⟨ready_hostReady, newDriver12_inv, ⟨_, exec_fadeIn ready_hostReady (by decide)⟩,
    by cases Config.fadeWriteMode <;> simp, by decide, by decide, by decide⟩

theorem witness_BuildLutFillsTheTables : HostReady ready (newDriver 12) := ready_hostReady

theorem witness_ArmEntersSteadyOnceTablesAreBuilt :
    (HostReady { ready with lut := some (buildTables colorT) } (newDriver 12) ∧
      ({ ready with lut := some (buildTables colorT) } : State).lutValid = true) ∧
    HostReady ready (newDriver 12) ∧ ready.lutValid = false :=
  ⟨⟨⟨rfl, rfl, rfl⟩, rfl⟩, ready_hostReady, rfl⟩

theorem witness_TickRendersThenAdvances : TickReady steady (newDriver 12) (buildTables Config.color) ∧
    12 ≤ (newDriver 12).cc ∧ steady.phase[steady.idx].toNat < 360 := ⟨steady_tickReady, by decide, by decide⟩

theorem witness_TickLeavesTheOtherLights : TickReady steady (newDriver 12) (buildTables Config.color) ∧
    DriverInv (newDriver 12) ∧ steady.phase[steady.idx].toNat < 360 ∧ 11 < (newDriver 12).cc ∧ 11 ≠ 3 * steady.idx.val :=
  ⟨steady_tickReady, newDriver12_inv, by decide, by decide, by decide⟩

theorem witness_TicksRoundRobinForever : Inv steady ∧ steady.mode = .steady ∧ steady.idx = 0 ∧ steady.cnt = 26 :=
  ⟨steady_inv, rfl, rfl, rfl⟩

/-- A command in SETUP, a tick in STEADY, and a power-on in the faulted state. -/
theorem witness_EveryStepKeepsTheInvariant :
    (Inv ready ∧ ∃ t, step (present ⟨0x5, []⟩ ready) = .next t) ∧
    (Inv steady ∧ ∃ t, step (present ⟨0xB, []⟩ steady) = .next t) ∧
    Inv faulted ∧ ∃ t, step { faulted with inbox := [.powerOn] } = .next t :=
  ⟨⟨ready_inv, _, rfl⟩, ⟨steady_inv, steady_ticks⟩, faulted_inv, _, rfl⟩

/-- One state for each of the seven clauses. -/
theorem witness_AdmissionChecksInOrder :
    faulted.fault = true ∧ (steady.fault = false ∧ steady.mode = .steady ∧ Instr.write ≠ .tick) ∧
    (ready.fault = false ∧ ready.mode = .setup) ∧
    (State.reset.fault = false ∧ State.reset.mode = .setup ∧ State.reset.constructed = false) ∧
    (({ State.reset with mode := .steady } : State).fault = false ∧
      ({ State.reset with mode := .steady } : State).constructed = false) ∧
    (ready.constructed = true ∧ ∃ pin cc, Instr.construct 0 12 = .construct pin cc) ∧ ready.lutValid = false :=
  ⟨rfl, ⟨rfl, rfl, by decide⟩, ⟨rfl, rfl⟩, ⟨rfl, rfl, rfl⟩, ⟨rfl, rfl⟩, ⟨rfl, 0, 12, rfl⟩, rfl⟩

/-- One state for each clause; ARM's has the tables. -/
theorem witness_AdmittedCommandsAlwaysAnswer :
    (Inv State.reset ∧ State.reset.fault = false ∧ State.reset.mode = .setup ∧ State.reset.constructed = false) ∧
    (Inv ready ∧ ready.fault = false ∧ ready.mode = .setup ∧ ready.constructed = true) ∧
    (Inv { ready with lut := some (buildTables Config.color) } ∧
      ({ ready with lut := some (buildTables Config.color) } : State).lutValid = true) ∧
    Inv steady ∧ steady.fault = false ∧ steady.mode = .steady :=
  ⟨⟨reset_inv, rfl, rfl, rfl⟩, ⟨ready_inv, rfl, rfl, rfl⟩,
    ⟨constructed_inv rfl rfl rfl rfl (fun _ h => by cases h; rfl) (fun h => by cases h) (by decide), rfl⟩,
    steady_inv, rfl, rfl⟩

/-- A next state of commands that write the encoder, of TICK, of BUILD_LUT and of a command that faults. -/
theorem witness_OnlyTheNamedCommandsWriteEachElement :
    (∃ t, exec (.setChannel16 0 1) ready = .next t ∧ t.fault = false) ∧
    (∃ t, exec (.setBrightness 1 2 3) ready = .next t ∧ t.fault = false) ∧ (∃ t, exec .tick steady = .next t) ∧
    (∃ t, exec .buildLut ready = .next t) ∧ ∃ t, exec (.setChannel16 12 0) ready = .next t ∧ t.fault = true :=
  ⟨⟨_, rfl, rfl⟩, ⟨_, rfl, rfl⟩, ⟨_, execTick_of_ready steady_tickReady (by decide)⟩, ⟨_, rfl⟩, _, rfl, rfl⟩

/-- A fault of each command that can take one, and each cause; the other commands take none. -/
theorem witness_FaultEntryRecordsOnlyTheCommandAndCause :
    (Inv State.reset ∧ Inv ready) ∧
    after (exec (.construct 0 13) State.reset) record = some (true, 1, 0x0) ∧
    after (exec (.setBrightness 128 0 0) ready) record = some (true, 4, 0x4) ∧
    after (exec (.setChannel16 12 0) ready) record = some (true, 2, 0x1) ∧
    after (exec (.setChannel16 0 65536) ready) record = some (true, 3, 0x1) ∧
    after (exec (.setLed16 4 0 0 0) ready) record = some (true, 2, 0x2) ∧
    after (exec (.setLed8 0 0 0 256) ready) record = some (true, 3, 0x3) ∧
    after (exec (.ledsSet16 (-1) 0 0 0) ready) record = some (true, 2, 0x6) ∧
    after (exec (.ledsSet8 0 0 256 0) ready) record = some (true, 3, 0x7) :=
  ⟨⟨reset_inv, ready_inv⟩, by decide, by decide, by decide, by decide, by decide, by decide, by decide, by decide⟩

theorem witness_FaultedStateIsLeftByPowerOnOnly :
    faulted.fault = true ∧ step { faulted with inbox := [.powerOn] } = .next State.reset := ⟨rfl, rfl⟩

theorem witness_FramesAreAppendOnly : (∀ rest, (present ⟨0x5, []⟩ ready).inbox ≠ .powerOn :: rest) ∧
    ∃ t, step (present ⟨0x5, []⟩ ready) = .next t := ⟨fun _ h => (by cases h), _, rfl⟩

theorem witness_BufferIsNeverResized :
    (exec (.construct 0 12) State.reset = .next ready ∧ ready.driver = some (newDriver 12)) ∧
    (newDriver 12).buf.map Prod.fst = List.range (4 + 2 * (newDriver 12).cc) ∧
    ∃ t, exec (.setLed8 3 1 2 3) ready = .next t :=
  ⟨⟨exec_construct 0 12 reset_constructReady (by decide), rfl⟩, newDriver12_inv.addresses, _, rfl⟩

theorem witness_SteadyStateNeverFaults : Inv steady ∧ steady.mode = .steady ∧
    (∀ rest, (present ⟨0xB, []⟩ steady).inbox ≠ .powerOn :: rest) ∧ ∃ t, step (present ⟨0xB, []⟩ steady) = .next t :=
  ⟨steady_inv, rfl, fun _ h => (by cases h), steady_ticks⟩

end Sys2Proof.Tests
end

section
/-! Proofs of the statements about SET_CHANNEL_16's example (R108) and WRITE (R125). -/

namespace Sys2Proof.Machine

variable {s : State} {d : ChipDriver}

/-! ## One channel store -/

/-- SET_CHANNEL_16 on operands in range (R105, R107). -/
theorem exec_setChannel16_inRange {ch v : Int} (h : HostReady s d) (hch : 0 ≤ ch ∧ ch < d.cc)
    (hv : 0 ≤ v ∧ v ≤ 65535) :
    exec (.setChannel16 ch v) s = .next { s with driver := some (putChannel ch.toNat v.toNat d) } := by
  rw [exec_setChannel16 ch v h, storeChannel_inRange hch hv, finish_of_none rfl]; rfl

/-- The byte at the channel's offset is the high byte of the value (R107). -/
theorem readByte_putChannel_high (ch v : Nat) (d : ChipDriver) :
    readByte (putChannel ch v d).buf (offset d.cc ch) = some (BitVec.ofNat 8 (v / 256)) := by
  simpa [putChannel, Nat.shiftRight_eq_div_pow] using
    readByte_memWrite d.buf (offset d.cc ch) (n := 2) (j := 0) v (by decide)

/-- The byte after it is the low byte of the value (R107). -/
theorem readByte_putChannel_low (ch v : Nat) (d : ChipDriver) :
    readByte (putChannel ch v d).buf (offset d.cc ch + 1) = some (BitVec.ofNat 8 v) := by
  simpa [putChannel] using readByte_memWrite d.buf (offset d.cc ch) (n := 2) (j := 1) v (by decide)

end Sys2Proof.Machine

open Sys2Proof Sys2Proof.Machine

/-! ## The statements -/

/-- Settles O28: the frame WRITE appends is `frameOf` of the buffer, whose bytes are read at their own addresses when
the buffer holds exactly 0..BUF_LEN-1. -/
theorem writeTransmitsTheWholeBuffer : Obligations.WriteTransmitsTheWholeBuffer :=
  ⟨rfl, fun _ d hready haddr =>
    ⟨frameOf d.buf, exec_write hready, frameOf_length haddr, fun k _ => frameOf_getElem haddr k⟩⟩

/-- Settles O16: with CC = 12 the channel 11 is stored at the offset 4, high byte first. -/
theorem setChannelElevenFillsBytesFourAndFive : Obligations.SetChannelElevenFillsBytesFourAndFive := by
  intro s d hready hcc
  have hoffset : offset d.cc 11 = 4 := by rw [hcc]; rfl
  have hhigh := readByte_putChannel_high 11 0xABCD d
  have hlow := readByte_putChannel_low 11 0xABCD d
  rw [hoffset] at hhigh hlow
  exact ⟨putChannel 11 0xABCD d, exec_setChannel16_inRange hready (by omega) (by decide), hhigh, hlow⟩

end

section
/-! Proof of the statement about the lights a TICK does not refresh (R156). -/

namespace Sys2Proof.Machine

/-- Rendering a light writes that light's three channels and no other (R107, R152). -/
theorem channel_drawLight_other (l : Fin Config.nLights) (c : Color) {d : ChipDriver} {ch : Nat} (hcc : 12 ≤ d.cc)
    (hch : ch < d.cc) (hne : ch ≠ 3 * l.val ∧ ch ≠ 3 * l.val + 1 ∧ ch ≠ 3 * l.val + 2) :
    channel (drawLight l c d) ch = channel d ch :=
  have hl : l.val < 4 := l.isLt
  channel_putLed_other _ _ _ (by omega) hch hne

/-- The frame of the buffer after a light was rendered carries what each channel then holds (R77). -/
theorem frameChannel_drawLight (l : Fin Config.nLights) (c : Color) {d : ChipDriver} (h : DriverInv d) (ch : Nat) :
    frameChannel d.cc (frameOf (drawLight l c d).buf) ch = channel (drawLight l c d) ch :=
  frameChannel_frameOf (d := drawLight l c d) (addresses_drawLight l c (twelve_le_cc h) h.addresses) ch

/-- The encoder after a tick is the one with the advancing light rendered (R151). -/
theorem tick_driver (t : Luts) (p : Fin Config.lutLen) {d : ChipDriver} (s : State) (hcc : 12 ≤ d.cc) :
    (tick t p d s).driver = some (drawLight s.idx (lutColor t p) d) := by
  rw [tick_eq t p s hcc, countDown_eq]; rfl

/-- A tick emits one frame, of the buffer with the advancing light rendered (R151). -/
theorem tick_frames (t : Luts) (p : Fin Config.lutLen) {d : ChipDriver} (s : State) (hcc : 12 ≤ d.cc) :
    (tick t p d s).frames = s.frames ++ [frameOf (drawLight s.idx (lutColor t p) d).buf] := by
  rw [tick_eq t p s hcc, countDown_eq]; rfl

end Sys2Proof.Machine

open Sys2Proof Sys2Proof.Machine

/-- Settles O35: a tick renders the advancing light only, so every other channel stays in the buffer, and the frame
carries the whole buffer. -/
theorem tickLeavesTheOtherLights : Obligations.TickLeavesTheOtherLights := by
  intro s d t hready hinv hphase
  have hcc : 12 ≤ d.cc := twelve_le_cc hinv
  refine ⟨_, _, _, execTick_of_ready hready hphase, tick_driver t _ s hcc, tick_frames t _ s hcc, ?_⟩
  intro ch hch hred hgreen hblue
  have hkept := channel_drawLight_other s.idx (lutColor t ⟨s.phase[s.idx].toNat, hphase⟩) hcc hch
    ⟨hred, hgreen, hblue⟩
  exact ⟨hkept, (frameChannel_drawLight s.idx _ hinv ch).trans hkept⟩

end

section
/-! What a command that answers a next state can have done, said once for all twelve, and what follows from it for
each state element and for the invariant of the block. -/

namespace Sys2Proof.Machine

/-- The commands that are made of channel stores, FADE_IN among them (R105, R110, R114, R130, R134, R141). -/
def storesChannels : Instr → Bool
  | .setChannel16 _ _ => true
  | .setLed16 _ _ _ _ => true
  | .setLed8 _ _ _ _ => true
  | .ledsSet16 _ _ _ _ => true
  | .ledsSet8 _ _ _ _ => true
  | .fadeIn => true
  | _ => false

/-- The next states a command can answer. A command made of channel stores, and TICK, either completes on the
progress `p` it made or takes the fault that `p` raised; with 12 channels or more FADE_IN and TICK raise none. -/
inductive Effect (s : State) : Instr → State → Prop
  | badCount (pin cc : Int) (hr : ConstructReady s) :
      Effect s (.construct pin cc) (raiseFault 0x0 .channelCount s)
  | created (pin cc : Int) (hr : ConstructReady s) (hc : 0 < cc ∧ cc % 12 = 0) :
      Effect s (.construct pin cc) { s with driver := some (newDriver cc.toNat) }
  | stored (i : Instr) (d : ChipDriver) (p : Progress) (hi : storesChannels i = true) (hr : HostReady s d)
      (hp : (begin s d).Evolves p) (hq : i = .fadeIn ∨ p.frames = s.frames ∧ p.pauses = s.pauses) :
      Effect s i (commit s p)
  | storeFault (i : Instr) (d : ChipDriver) (p : Progress) (c : FaultCode) (hi : storesChannels i = true)
      (hr : HostReady s d) (hp : (begin s d).Evolves p)
      (hq : i = .fadeIn ∨ p.frames = s.frames ∧ p.pauses = s.pauses)
      (hc : c ≠ .none) (hcc : i = .fadeIn → d.cc < 12) : Effect s i (raiseFault (codeOf i) c (commit s p))
  | badBrightness (r g b : Int) (d : ChipDriver) (hr : HostReady s d) :
      Effect s (.setBrightness r g b) (raiseFault 0x4 .brightnessValue s)
  | brightness (r g b : Int) (d : ChipDriver) (r' g' b' : Brightness) (hr : HostReady s d) :
      Effect s (.setBrightness r g b) { s with driver := some (setBrightness r' g' b' d) }
  | written (d : ChipDriver) (hr : HostReady s d) :
      Effect s .write { s with frames := s.frames ++ [frameOf d.buf] }
  | tablesBuilt (d : ChipDriver) (hr : HostReady s d) :
      Effect s .buildLut { s with lut := some (buildTables Config.color) }
  | armed (d : ChipDriver) (hr : HostReady s d) (hl : s.lutValid = true) :
      Effect s .arm { s with mode := .steady }
  | ticked (d : ChipDriver) (t : Luts) (p : Progress) (hr : TickReady s d t) (hp : (begin s d).Evolves p)
      (hq : p.pauses = s.pauses) : Effect s .tick (countDown (advancePhase (commit s p)))
  | tickFault (d : ChipDriver) (t : Luts) (p : Progress) (c : FaultCode) (hr : TickReady s d t)
      (hp : (begin s d).Evolves p) (hq : p.pauses = s.pauses) (hcc : d.cc < 12) :
      Effect s .tick (raiseFault 0xB c (commit s p))

/-! ## Every next state is one of these -/

section Inversion

variable {s t : State}

/-- The end of a command made of channel stores. -/
theorem finish_effect {i : Instr} {d : ChipDriver} {p : Progress} (hi : storesChannels i = true) (hr : HostReady s d)
    (hp : (begin s d).Evolves p) (hq : i = .fadeIn ∨ p.frames = s.frames ∧ p.pauses = s.pauses)
    (hcc : i = .fadeIn → 12 ≤ d.cc → p.raised = none) : Effect s i (finish (codeOf i) s p) := by
  cases h : p.raised with
  | none => rw [finish_of_none h]; exact .stored i d p hi hr hp hq
  | some c =>
    have hc : c ≠ .none := fun e => hp.raised (by simp) (by rw [h, e])
    have hlt : i = .fadeIn → d.cc < 12 := fun hf => by
      by_contra hge
      rw [hcc hf (by omega)] at h
      cases h
    rw [finish_of_some h]
    exact .storeFault i d p c hi hr hp hq hc hlt

theorem ledInstr_effect (form : OperandForm) {i r g b : Int} (h : exec (ledInstr form i r g b) s = .next t) :
    Effect s (ledInstr form i r g b) t := by
  obtain ⟨d, hr, rfl⟩ := ledInstr_next h
  have hi : storesChannels (ledInstr form i r g b) = true := by cases form <;> rfl
  have hne : ledInstr form i r g b ≠ .fadeIn := by cases form <;> simp [ledInstr]
  exact finish_effect hi hr (storeLed_evolves _ _ _ _ _ _) (.inr (by simp)) fun e => absurd e hne

/-- The fade raises nothing with 12 channels or more (R142). -/
theorem fade_raised (color : Angle → Byte → Byte → Color) (mode : FadeWriteMode) (delay : Nat)
    (phase : Vector Angle Config.nLights) (s : State) {d : ChipDriver} (hcc : 12 ≤ d.cc) :
    (fade color mode delay phase (begin s d)).raised = none := by
  rw [fade, begin, fade_levels color mode delay phase s.frames s.pauses hcc]

theorem tick_effect (h : exec .tick s = .next t) : Effect s .tick t := by
  obtain ⟨d, luts, hr, hp, rfl⟩ := tick_next h
  have hev : (begin s d).Evolves (thenDo (renderLight s.idx (lutColor luts ⟨_, hp⟩) (begin s d)) emitFrame) :=
    (renderLight_evolves _ _ _).thenDo emitFrame_evolves
  have hpauses : (thenDo (renderLight s.idx (lutColor luts ⟨_, hp⟩) (begin s d)) emitFrame).pauses = s.pauses := by
    rw [thenDo_pauses (by simp), renderLight, storeLed_pauses, begin_pauses]
  rw [tick]
  cases hc : (thenDo (renderLight s.idx (lutColor luts ⟨_, hp⟩) (begin s d)) emitFrame).raised with
  | none => rw [finish_of_none hc]; exact .ticked d luts _ hr hev hpauses
  | some c =>
    rw [finish_of_some hc]
    refine .tickFault d luts _ c hr hev hpauses ?_
    by_contra hge
    rw [renderLight_eq _ _ rfl (by simpa using hge), thenDo_withDriver rfl] at hc
    cases hc

/-- Every next state of a command is one of its effects. -/
theorem exec_effect {i : Instr} (h : exec i s = .next t) : Effect s i t := by
  cases i with
  | construct pin cc =>
    obtain ⟨hr, ⟨-, rfl⟩ | ⟨hc, rfl⟩⟩ := construct_next h
    · exact .badCount pin cc hr
    · exact .created pin cc hr hc
  | setChannel16 ch v16 =>
    obtain ⟨d, hr, rfl⟩ := setChannel16_next h
    exact finish_effect (i := .setChannel16 ch v16) rfl hr (storeChannel_evolves _ _ _ _) (.inr (by simp))
      fun e => by cases e
  | setLed16 led r g b => exact ledInstr_effect .direct16 h
  | setLed8 led r g b => exact ledInstr_effect .replicated8 h
  | ledsSet16 led r g b => exact ledInstr_effect .inverted16 h
  | ledsSet8 led r g b => exact ledInstr_effect .inverted8 h
  | setBrightness r g b =>
    obtain ⟨d, hr, rfl | ⟨r', g', b', rfl⟩⟩ := setBrightness_next h
    · exact .badBrightness r g b d hr
    · exact .brightness r g b d r' g' b' hr
  | write => obtain ⟨d, hr, rfl⟩ := write_next h; exact .written d hr
  | fadeIn =>
    obtain ⟨d, hr, rfl⟩ := fadeIn_next h
    exact finish_effect (i := .fadeIn) rfl hr (fade_evolves _ _ _ _ _) (.inl rfl) fun _ => fade_raised _ _ _ _ s
  | buildLut => obtain ⟨d, hr, rfl⟩ := buildLut_next h; exact .tablesBuilt d hr
  | arm => obtain ⟨d, hr, hl, rfl⟩ := arm_next h; exact .armed d hr hl
  | tick => exact tick_effect h

end Inversion

/-! ## What each update keeps of the invariant -/

section Invariant

variable {s t : State} {d : ChipDriver}

theorem inv_inbox (h : Inv s) (rest : List Input) : Inv { s with inbox := rest } := { h with }

/-- At reset there is no encoder, no frame and no table, MODE is SETUP and FAULT is 0 (R190). -/
theorem inv_reset : Inv State.reset where
  driver _ hd := by cases hd
  frames _ hd := by cases hd
  noFrames _ := rfl
  phase := by decide
  count := by decide
  tables _ ht := by cases ht
  steady hm := by cases hm
  noFault hm := by cases hm
  record := by decide

theorem inv_powerOn (rest : List Input) : Inv (powerOn rest) := inv_inbox inv_reset rest

/-- A fault taken in SETUP, by one of the four causes. -/
theorem inv_raiseFault (h : Inv s) (op : Code) {c : FaultCode} (hc : c ≠ .none) (hm : s.mode = .setup) :
    Inv (raiseFault op c s) :=
  { h with
    noFault := fun hs => by rw [raiseFault_mode, hm] at hs; cases hs
    record := by simpa using hc }

/-- Progress that only evolved, put into the state. -/
theorem inv_commit (h : Inv s) (hd : s.driver = some d) {p : Progress} (hp : (begin s d).Evolves p) :
    Inv (commit s p) :=
  have hinv := h.driver d hd
  { h with
    driver := fun d' hd' => by cases hd'; exact hp.driverInv hinv
    frames := fun d' hd' f hf => by
      cases hd'
      obtain ⟨fs, hfs, hlen⟩ := hp.frames
      rw [commit_frames, hfs, begin_frames, List.mem_append] at hf
      rw [hp.cc]
      exact hf.elim (h.frames d hd f) (hlen hinv.addresses f)
    noFrames := fun hn => by cases hn
    steady := fun hm => ⟨rfl, (h.steady hm).2⟩ }

theorem inv_created (h : Inv s) (hr : ConstructReady s) {cc : Nat} (hc : 0 < cc) (h12 : cc % 12 = 0) :
    Inv { s with driver := some (newDriver cc) } :=
  { h with
    driver := fun d' hd' => by cases hd'; exact newDriver_inv hc h12
    frames := fun d' _ f hf => by rw [h.noFrames hr.2.2] at hf; cases hf
    noFrames := fun hn => by cases hn
    steady := fun hm => ⟨rfl, (h.steady hm).2⟩ }

theorem inv_brightness (h : Inv s) (hr : HostReady s d) (r g b : Brightness) :
    Inv { s with driver := some (setBrightness r g b d) } :=
  { h with
    driver := fun d' hd' => by cases hd'; exact setBrightness_inv r g b (h.driver d hr.2.2)
    frames := fun d' hd' => by cases hd'; exact h.frames d hr.2.2
    noFrames := fun hn => by cases hn
    steady := fun hm => ⟨rfl, (h.steady hm).2⟩ }

theorem inv_written (h : Inv s) (hr : HostReady s d) : Inv { s with frames := s.frames ++ [frameOf d.buf] } :=
  { h with
    frames := fun d' hd' f hf => by
      obtain rfl : d = d' := Option.some.inj (hr.2.2.symm.trans hd')
      rcases List.mem_append.1 hf with hf | hf
      · exact h.frames d hd' f hf
      · rw [List.mem_singleton.1 hf, frameOf_length (h.driver d hd').addresses]
    noFrames := fun hn => by cases hr.2.2.symm.trans hn }

theorem inv_tablesBuilt (h : Inv s) : Inv { s with lut := some (buildTables Config.color) } :=
  { h with
    tables := fun t ht => by cases ht; rfl
    steady := fun hm => ⟨(h.steady hm).1, rfl⟩ }

theorem inv_armed (h : Inv s) (hr : HostReady s d) (hl : s.lutValid = true) : Inv { s with mode := .steady } :=
  { h with
    steady := fun _ => ⟨by simp [State.constructed, hr.2.2], hl⟩
    noFault := fun _ => hr.1 }

/-- Advancing a phase keeps every phase below 360 (R30, R151). -/
theorem inv_advancePhase (h : Inv s) : Inv (advancePhase s) :=
  { h with
    phase := fun l => by
      have hl := h.phase l
      simp only [advancePhase_phase, Fin.getElem_fin, Vector.getElem_set] at hl ⊢
      split
      · simp only [BitVec.toNat_ofNat, Config.phaseMod]; omega
      · exact hl }

/-- The countdown keeps CNT in 1..26 (R32, R153). -/
theorem inv_countDown (h : Inv s) : Inv (countDown s) := by
  obtain ⟨hlow, hhigh⟩ := h.count
  by_cases hc : s.cnt = 1
  · rw [countDown_last hc]
    exact { h with count := ⟨(by decide : 1 ≤ Config.adv.toNat), le_rfl⟩ }
  · rw [countDown_not_last hc]
    refine { h with count := ?_ }
    have hne : s.cnt.toNat ≠ 1 := fun e => hc (BitVec.eq_of_toNat_eq e)
    have hsub : (s.cnt - 1).toNat = s.cnt.toNat - 1 := by bv_omega
    rw [hsub]
    omega

/-- The invariant is kept by every effect a command can have. -/
theorem Effect.inv {i : Instr} (he : Effect s i t) (h : Inv s) : Inv t := by
  cases he with
  | badCount pin cc hr => exact inv_raiseFault h _ (by decide) hr.2.1
  | created pin cc hr hc => exact inv_created h hr (by omega) (by omega)
  | stored i d p hi hr hp hq => exact inv_commit h hr.2.2 hp
  | storeFault i d p c hi hr hp hq hc hcc => exact inv_raiseFault (inv_commit h hr.2.2 hp) _ hc hr.2.1
  | badBrightness r g b d hr => exact inv_raiseFault h _ (by decide) hr.2.1
  | brightness r g b d r' g' b' hr => exact inv_brightness h hr r' g' b'
  | written d hr => exact inv_written h hr
  | tablesBuilt d hr => exact inv_tablesBuilt h
  | armed d hr hl => exact inv_armed h hr hl
  | ticked d luts p hr hp hq => exact inv_countDown (inv_advancePhase (inv_commit h hr.2.2.1 hp))
  | tickFault d luts p c hr hp hq hcc =>
    have := twelve_le_cc (h.driver d hr.2.2.1)
    omega

theorem exec_keeps_inv {i : Instr} (h : Inv s) (he : exec i s = .next t) : Inv t := (exec_effect he).inv h

end Invariant

end Sys2Proof.Machine

open Sys2Proof Sys2Proof.Machine

/-- Settles O37: a step is a power-on, a wait or a command, and each effect a command can have keeps the invariant. -/
theorem everyStepKeepsTheInvariant : Obligations.EveryStepKeepsTheInvariant := by
  intro s t hinv hstep
  rcases step_next hstep with ⟨rest, -, rfl⟩ | ⟨-, -, rfl⟩ | ⟨tr, rest, i, -, -, -, he⟩
  · exact inv_powerOn rest
  · exact hinv
  · exact exec_keeps_inv (inv_inbox hinv rest) he

end

section
/-! Proofs of the statements about the command interface (R79 to R82) and the delivery of inputs (R16, R177, R190). -/

namespace Sys2Proof.Machine

/-! ## Decoding -/

theorem decode_encode (i : Instr) : decode (encode i) = .ok i := by cases i <;> rfl

/-- A transaction with the code and the operands of a command is the command's encoding (R79). -/
theorem eq_encode {t : Transaction} {i : Instr} (hop : t.op.toNat = (codeOf i).toNat) (hargs : t.args = operandsOf i) :
    t = encode i := by
  obtain ⟨op, args⟩ := t
  obtain rfl : op = codeOf i := BitVec.eq_of_toNat_eq hop
  obtain rfl : args = operandsOf i := hargs
  rfl

/-- Only the encoding of a command decodes to it. -/
theorem eq_encode_of_decode {t : Transaction} {i : Instr} (h : decode t = .ok i) : t = encode i := by
  unfold decode at h
  split at h <;> cases h <;> exact eq_encode ‹_› ‹_›

/-- What does not decode is rejected by its code alone (R81). -/
theorem decode_error {t : Transaction} (h : ∀ i, t ≠ encode i) :
    decode t = .error (if t.op.toNat < 0xC then .badArity else .undefinedOp) := by
  cases hd : decode t with
  | ok i => exact absurd (eq_encode_of_decode hd) (h i)
  | error e =>
    unfold decode at hd
    split at hd <;> cases hd
    rfl

/-- The code and the operand count of an encoding are those of its row (R80). -/
theorem encode_row : ∀ i : Instr, Laws.TableRow.Statement i
  | .construct pin cc => Laws.TableRow.construct pin cc
  | .setChannel16 ch v16 => Laws.TableRow.setChannel16 ch v16
  | .setLed16 i r g b => Laws.TableRow.setLed16 i r g b
  | .setLed8 i r g b => Laws.TableRow.setLed8 i r g b
  | .setBrightness r g b => Laws.TableRow.setBrightness r g b
  | .write => Laws.TableRow.write
  | .ledsSet16 i r g b => Laws.TableRow.ledsSet16 i r g b
  | .ledsSet8 i r g b => Laws.TableRow.ledsSet8 i r g b
  | .fadeIn => Laws.TableRow.fadeIn
  | .buildLut => Laws.TableRow.buildLut
  | .arm => Laws.TableRow.arm
  | .tick => Laws.TableRow.tick

/-- A code with as many operands as its row takes is the encoding of that row's command (R80). -/
theorem exists_encode {t : Transaction} (h : operandCount t.op = some t.args.length) : ∃ i, t = encode i := by
  unfold operandCount at h
  split at h <;> simp only [Option.some.injEq, reduceCtorEq] at h <;> symm at h
  · next hop => obtain ⟨pin, cc, hx⟩ := List.length_eq_two.1 h; exact ⟨.construct pin cc, eq_encode hop hx⟩
  · next hop => obtain ⟨ch, v16, hx⟩ := List.length_eq_two.1 h; exact ⟨.setChannel16 ch v16, eq_encode hop hx⟩
  · next hop => obtain ⟨i, r, g, b, hx⟩ := List.length_eq_four.1 h; exact ⟨.setLed16 i r g b, eq_encode hop hx⟩
  · next hop => obtain ⟨i, r, g, b, hx⟩ := List.length_eq_four.1 h; exact ⟨.setLed8 i r g b, eq_encode hop hx⟩
  · next hop => obtain ⟨i, r, g, b, hx⟩ := List.length_eq_four.1 h; exact ⟨.ledsSet16 i r g b, eq_encode hop hx⟩
  · next hop => obtain ⟨i, r, g, b, hx⟩ := List.length_eq_four.1 h; exact ⟨.ledsSet8 i r g b, eq_encode hop hx⟩
  · next hop => obtain ⟨r, g, b, hx⟩ := List.length_eq_three.1 h; exact ⟨.setBrightness r g b, eq_encode hop hx⟩
  · next hop => exact ⟨.write, eq_encode hop (List.length_eq_zero_iff.1 h)⟩
  · next hop => exact ⟨.fadeIn, eq_encode hop (List.length_eq_zero_iff.1 h)⟩
  · next hop => exact ⟨.buildLut, eq_encode hop (List.length_eq_zero_iff.1 h)⟩
  · next hop => exact ⟨.arm, eq_encode hop (List.length_eq_zero_iff.1 h)⟩
  · next hop => exact ⟨.tick, eq_encode hop (List.length_eq_zero_iff.1 h)⟩

/-! ## Delivery -/

variable {s : State} {t : Transaction} {rest : List Input}

theorem step_powerOn (h : s.inbox = .powerOn :: rest) : step s = .next (powerOn rest) := by
  simp [step, deliver, h]

/-- With nothing waiting the block waits, unless it is in the faulted state (R171, R191). -/
theorem step_idle (h : s.inbox = []) : step s = if s.fault then .fault .faulted else .next s := by
  cases hf : s.fault <;> simp [step, deliver, h, hf]

/-- In the faulted state no transaction is looked at (R171, R177). -/
theorem step_faulted (h : s.inbox = .command t :: rest) (hf : s.fault = true) : step s = .fault .faulted := by
  simp [step, deliver, h, hf]

theorem step_command {i : Instr} (h : s.inbox = .command t :: rest) (hf : s.fault = false) (hd : decode t = .ok i) :
    step s = exec i { s with inbox := rest } := by
  simp [step, deliver, h, hf, hd]

theorem step_refused {e : DecodeError} (h : s.inbox = .command t :: rest) (hf : s.fault = false)
    (hd : decode t = .error e) : step s = .refused (refusalOf e) := by
  simp [step, deliver, h, hf, hd]

end Sys2Proof.Machine

open Sys2Proof Sys2Proof.Machine

/-- Settles O7: `decode_encode` one way; the other way a transaction is its code and its operands. -/
theorem decodeInvertsEncodeBothWays : Obligations.DecodeInvertsEncodeBothWays := fun _ i =>
  ⟨eq_encode_of_decode, fun h => h ▸ decode_encode i⟩

/-- Settles O8: a transaction is the encoding of a command, with the code and the count of its row, or it is none and
is rejected by its code. -/
theorem reservedCodesAndWrongCountsAreRejected : Obligations.ReservedCodesAndWrongCountsAreRejected := by
  intro t
  by_cases h : ∃ i, t = encode i
  · obtain ⟨i, rfl⟩ := h
    obtain ⟨hop, hcount⟩ := encode_row i
    rw [decode_encode, hcount]
    simp [hop]
  · have hcount : operandCount t.op ≠ some t.args.length := fun hc => h (exists_encode hc)
    rw [decode_error (not_exists.1 h)]
    by_cases hop : t.op.toNat < 0xC
    · simp [hop, hcount]
    · simp [hop, Nat.not_lt.1 hop]

/-- Settles O1: every element of the reset state, read off its definition. -/
theorem resetPutsEveryElementAtItsValue : Obligations.ResetPutsEveryElementAtItsValue :=
  ⟨rfl, rfl, by decide, rfl, rfl, rfl, rfl, rfl, rfl, rfl, rfl, rfl⟩

/-- Settles O2: the base case of the invariant. -/
theorem resetMeetsTheInvariant : Obligations.ResetMeetsTheInvariant := inv_reset

/-- Settles O3: delivery of a transaction that decodes. -/
theorem stepRunsTheDecodedCommand : Obligations.StepRunsTheDecodedCommand := fun _ _ _ _ => step_command

/-- Settles O4: one lemma of the delivery for each clause. -/
theorem stepWaitsResetsRefusesOrStops : Obligations.StepWaitsResetsRefusesOrStops := fun _ =>
  ⟨fun _ _ => step_faulted, fun _ _ => step_refused, fun _ _ => step_refused, fun _ => step_powerOn,
    fun h hf => by rw [step_idle h, hf]; rfl, fun h hf => by rw [step_idle h, hf]; rfl⟩

/-- Settles O5: the transaction of the word is delivered first, and taking it gives the state back. -/
theorem stepRunsAnOpcodeTableWord : Obligations.StepRunsAnOpcodeTableWord := by
  intro s nbits w i hf hw
  have hd : decode (tableTransaction nbits w) = .ok i := by
    unfold decodeTableWord at hw
    split at hw <;> cases hw
    assumption
  exact step_command (s := s.withFetchWord nbits w) rfl hf hd

/-- Settles O6: the four accepted transactions are encodings, the other two are written out in no row. -/
theorem writtenOutTransactionsDecode : Obligations.WrittenOutTransactionsDecode :=
  ⟨decode_encode (.construct 0 12), decode_encode (.setChannel16 11 0xABCD), decode_encode (.ledsSet8 7 1 2 3),
    decode_encode .tick, rfl, rfl⟩

end

section
/-! Proofs of the statements about one TICK (R151 to R153) and about a run of ticks (R158). -/

namespace Sys2Proof.Machine

variable {s : State} {d : ChipDriver}

/-! ## One tick -/

/-- What one tick does, as one update of the state (R151, R152, R153). -/
theorem exec_tick {t : Luts} (h : TickReady s d t) (hcc : 12 ≤ d.cc) (hp : s.phase[s.idx].toNat < Config.lutLen) :
    exec .tick s = .next { s with
      driver := some (drawLight s.idx (lutColor t ⟨s.phase[s.idx].toNat, hp⟩) d),
      frames := s.frames ++ [frameOf (drawLight s.idx (lutColor t ⟨s.phase[s.idx].toNat, hp⟩) d).buf],
      phase := s.phase.set s.idx (BitVec.ofNat 9 ((s.phase[s.idx].toNat + 1) % 360)),
      idx := if s.cnt = 1 then s.idx + 1 else s.idx,
      cnt := if s.cnt = 1 then 26 else s.cnt - 1 } := by
  rw [exec, execTick_of_ready h hp, tick_eq _ _ _ hcc, countDown_eq]; rfl

/-- In STEADY the invariant admits a tick. -/
theorem tickReady_of_inv (h : Inv s) (hm : s.mode = .steady) : ∃ d t, TickReady s d t ∧ 12 ≤ d.cc := by
  obtain ⟨hc, hl⟩ := h.steady hm
  obtain ⟨d, hd⟩ := Option.isSome_iff_exists.1 hc
  obtain ⟨t, ht⟩ := Option.isSome_iff_exists.1 hl
  exact ⟨d, t, ⟨h.noFault hm, hm, hd, ht⟩, twelve_le_cc (h.driver d hd)⟩

/-- In STEADY the invariant lets a tick complete (R154, R174). -/
theorem exec_tick_of_inv (h : Inv s) (hm : s.mode = .steady) : ∃ (d : ChipDriver) (f : Frame),
    exec .tick s = .next { s with
      driver := some d,
      frames := s.frames ++ [f],
      phase := s.phase.set s.idx (BitVec.ofNat 9 ((s.phase[s.idx].toNat + 1) % 360)),
      idx := if s.cnt = 1 then s.idx + 1 else s.idx,
      cnt := if s.cnt = 1 then 26 else s.cnt - 1 } := by
  obtain ⟨d, t, hr, hcc⟩ := tickReady_of_inv h hm
  exact ⟨_, _, exec_tick hr hcc (h.phase s.idx)⟩

/-! ## A run of ticks -/

/-- One tick more at the end of a run. -/
theorem runTicks_succ {k : Nat} {u : State} (h : runTicks k s = .next u) : runTicks (k + 1) s = exec .tick u := by
  induction k generalizing s with
  | zero =>
    cases h
    cases he : exec .tick u <;> simp [runTicks, he]
  | succ k ih =>
    rw [runTicks] at h ⊢
    cases he : exec .tick s with
    | next s' => rw [he] at h; exact ih h
    | fault r => rw [he] at h; cases h
    | refused r => rw [he] at h; cases h

/-- Tick `k` advances the light that IDX selects, and no other (R158). -/
theorem advances_succ (k : Nat) {l : Nat} (hl : l < 4) :
    advances (k + 1) l = advances k l + if k / 26 % 4 = l then 1 else 0 := by
  unfold advances
  split <;> omega

/-- `u` is where `k` ticks lead from `s`, IDX = 0 and CNT = 26: the closed forms of R153 and R158. -/
structure TickedFrom (s : State) (k : Nat) (u : State) : Prop where
  inv    : Inv u
  mode   : u.mode = .steady
  idx    : u.idx.val = k / 26 % 4
  cnt    : u.cnt.toNat = 26 - k % 26
  phase  : ∀ l : Fin Config.nLights, u.phase[l].toNat = (s.phase[l].toNat + advances k l.val) % 360
  frames : u.frames.length = s.frames.length + k

theorem tickedFrom_zero (h : Inv s) (hm : s.mode = .steady) (hi : s.idx = 0) (hc : s.cnt = 26) : TickedFrom s 0 s where
  inv := h
  mode := hm
  idx := by rw [hi]; rfl
  cnt := by rw [hc]; rfl
  phase l := by
    have hl : s.phase[l].toNat < 360 := h.phase l
    have hzero : advances 0 l.val = 0 := by simp [advances]
    rw [hzero, Nat.add_zero, Nat.mod_eq_of_lt hl]
  frames := rfl

theorem TickedFrom.succ {k : Nat} {u : State} (h : TickedFrom s k u) :
    ∃ v, exec .tick u = .next v ∧ TickedFrom s (k + 1) v := by
  obtain ⟨d, f, he⟩ := exec_tick_of_inv h.inv h.mode
  have hcnt := h.cnt
  have hlast : u.cnt = 1 ↔ k % 26 = 25 := by
    have hone : u.cnt = 1 ↔ u.cnt.toNat = 1 := ⟨fun e => by rw [e]; rfl, fun e => BitVec.eq_of_toNat_eq e⟩
    rw [hone, hcnt]
    omega
  refine ⟨_, he, exec_keeps_inv h.inv he, h.mode, ?idx, ?cnt, ?phase, ?frames⟩
  case idx =>
    have hidx := h.idx
    by_cases hl : k % 26 = 25
    · have hnext : (u.idx + 1).val = (u.idx.val + 1) % 4 := Fin.val_add u.idx 1
      simp only [hlast, hl, if_true, hnext, hidx]
      omega
    · simp only [hlast, hl, if_false, hidx]
      omega
  case cnt =>
    by_cases hl : k % 26 = 25
    · have hreload : (26 : BitVec 5).toNat = 26 := rfl
      simp only [hlast, hl, if_true, hreload]
      omega
    · simp only [hlast, hl, if_false]
      have hsub : (u.cnt - 1).toNat = u.cnt.toNat - 1 := by bv_omega
      omega
  case phase =>
    intro l
    have hphase := h.phase l
    rw [advances_succ k l.isLt, ← h.idx]
    simp only [Fin.getElem_fin, Vector.getElem_set] at hphase ⊢
    by_cases hl : u.idx.val = l.val
    · simp only [hl, if_true, BitVec.toNat_ofNat, hphase]
      omega
    · simp only [hl, if_false, hphase, Nat.add_zero]
  case frames =>
    rw [List.length_append, h.frames]; rfl

theorem runTicks_tickedFrom (h : TickedFrom s 0 s) (k : Nat) : ∃ u, runTicks k s = .next u ∧ TickedFrom s k u := by
  induction k with
  | zero => exact ⟨s, rfl, h⟩
  | succ k ih =>
    obtain ⟨u, hrun, hu⟩ := ih
    obtain ⟨v, he, hv⟩ := hu.succ
    exact ⟨v, (runTicks_succ hrun).trans he, hv⟩

end Sys2Proof.Machine

open Sys2Proof Sys2Proof.Machine

/-- Settles O34: the tick as one update, and the light rendered in the table colour. -/
theorem tickRendersThenAdvances : Obligations.TickRendersThenAdvances := fun _ _ _ hready hcc hp =>
  ⟨_, exec_tick hready hcc hp, drawLight_stores _ _ hcc⟩

/-- Settles O36, by induction on the number of ticks: the closed forms hold at the start and each tick keeps them. -/
theorem ticksRoundRobinForever : Obligations.TicksRoundRobinForever := by
  intro s hinv hmode hidx hcnt k
  obtain ⟨u, hrun, hu⟩ := runTicks_tickedFrom (tickedFrom_zero hinv hmode hidx hcnt) k
  exact ⟨u, hrun, hu.idx, hu.cnt, hu.phase, hu.frames, hu.mode, hu.inv.noFault hu.mode⟩

end

section
/-! Proofs of the statements about the admission of a command: which state turns it away (R177, R178), and that an
admitted one answers a next state (R170). -/

namespace Sys2Proof.Machine

/-! ## Admission -/

section Admission

variable {s : State} {i : Instr}

/-- Every command but CONSTRUCT and TICK is admitted as a host command (R100, R140). -/
theorem exec_host (ht : i ≠ .tick) (hc : ∀ pin cc, i ≠ .construct pin cc) : ∃ body, exec i s = admitHost s body := by
  cases i with
  | construct pin cc => exact absurd rfl (hc pin cc)
  | tick => exact absurd rfl ht
  | _ => exact ⟨_, rfl⟩

/-- A command is admitted as CONSTRUCT, as TICK or as a host command. -/
theorem exec_admission (i : Instr) (s : State) :
    (∃ pin cc body, i = .construct pin cc ∧ exec i s = admitConstruct s body) ∨
    (∃ body, i = .tick ∧ exec i s = admitTick s body) ∨
    (i ≠ .tick ∧ (∀ pin cc, i ≠ .construct pin cc) ∧ ∃ body, exec i s = admitHost s body) := by
  by_cases ht : i = .tick
  · subst ht; exact .inr (.inl ⟨_, rfl, rfl⟩)
  · by_cases hc : ∃ pin cc, i = .construct pin cc
    · obtain ⟨pin, cc, rfl⟩ := hc; exact .inl ⟨pin, cc, _, rfl, rfl⟩
    · have hc' : ∀ pin cc, i ≠ .construct pin cc := fun pin cc e => hc ⟨pin, cc, e⟩
      exact .inr (.inr ⟨ht, hc', exec_host ht hc'⟩)

/-- In the faulted state no command has a step (R171). -/
theorem exec_of_fault (i : Instr) (h : s.fault = true) : exec i s = .fault .faulted := by
  rcases exec_admission i s with ⟨_, _, _, -, e⟩ | ⟨_, -, e⟩ | ⟨-, -, _, e⟩ <;> rw [e]
  · simp [admitConstruct, h]
  · simp [admitTick, h]
  · simp [admitHost, h]

theorem exec_of_steady (hf : s.fault = false) (hm : s.mode = .steady) (ht : i ≠ .tick) :
    exec i s = .refused .hostInSteady := by
  rcases exec_admission i s with ⟨_, _, _, -, e⟩ | ⟨_, e, -⟩ | ⟨-, -, _, e⟩
  · rw [e]; simp [admitConstruct, hf, hm]
  · exact absurd e ht
  · rw [e]; simp [admitHost, hf, hm]

theorem exec_host_of_none (hf : s.fault = false) (hm : s.mode = .setup) (hd : s.driver = none) (ht : i ≠ .tick)
    (hc : ∀ pin cc, i ≠ .construct pin cc) : exec i s = .refused .notConstructed := by
  obtain ⟨body, e⟩ := exec_host ht hc
  rw [e]; simp [admitHost, hf, hm, hd]

theorem constructed_iff : s.constructed = true ↔ ∃ d, s.driver = some d := Option.isSome_iff_exists

theorem constructed_eq_false : s.constructed = false ↔ s.driver = none :=
  Option.isSome_eq_false_iff.trans Option.isNone_iff_eq_none

theorem exec_arm_unbuilt {d : ChipDriver} (h : HostReady s d) (hl : s.lutValid = false) :
    exec .arm s = .refused .lutNotBuilt := by
  rw [exec, execArm, admitHost_of_ready h, if_neg (by simp [hl])]

/-! ## An admitted command answers a next state (R170) -/

theorem exec_construct_answers (pin cc : Int) (h : ConstructReady s) : ∃ t, exec (.construct pin cc) s = .next t := by
  by_cases hc : cc ≤ 0 ∨ cc % 12 ≠ 0
  · exact ⟨_, exec_construct_bad pin cc h hc⟩
  · exact ⟨_, exec_construct pin cc h (by omega)⟩

theorem exec_setBrightness_answers (r g b : Int) {d : ChipDriver} (h : HostReady s d) :
    ∃ t, exec (.setBrightness r g b) s = .next t := by
  by_cases hv : r < 0 ∨ r > 127 ∨ g < 0 ∨ g > 127 ∨ b < 0 ∨ b > 127
  · exact ⟨_, exec_setBrightness_bad h hv⟩
  · exact ⟨_, exec_setBrightness h (by omega)⟩

theorem exec_host_answers {d : ChipDriver} (h : HostReady s d) (ht : i ≠ .tick) (hc : ∀ pin cc, i ≠ .construct pin cc)
    (ha : i = .arm → s.lutValid = true) : ∃ t, exec i s = .next t := by
  cases i with
  | construct pin cc => exact absurd rfl (hc pin cc)
  | tick => exact absurd rfl ht
  | setBrightness r g b => exact exec_setBrightness_answers r g b h
  | arm => exact ⟨_, exec_arm h (ha rfl)⟩
  | _ => exact ⟨_, admitHost_of_ready h _⟩

end Admission

end Sys2Proof.Machine

open Sys2Proof Sys2Proof.Machine

/-- Settles O38: each clause is one check of the three admissions, or ARM's own. -/
theorem admissionChecksInOrder : Obligations.AdmissionChecksInOrder := by
  intro i s
  refine ⟨exec_of_fault i, exec_of_steady, ?tickInSetup, ?host, ?tick, ?reconstruct, ?arm⟩
  case tickInSetup =>
    rintro hf hm rfl
    rw [exec, execTick]; simp [admitTick, hf, hm]
  case host =>
    intro hf hm hd
    exact exec_host_of_none hf hm (constructed_eq_false.1 hd)
  case tick =>
    rintro hf hm hd rfl
    rw [exec, execTick]; simp [admitTick, hf, hm, constructed_eq_false.1 hd]
  case reconstruct =>
    rintro hf hm hd ⟨pin, cc, rfl⟩
    rw [exec, execConstruct]; simp [admitConstruct, hf, hm, hd]
  case arm =>
    rintro hf hm hd hl rfl
    obtain ⟨d, hd⟩ := constructed_iff.1 hd
    exact exec_arm_unbuilt ⟨hf, hm, hd⟩ hl

/-- Settles O39: an admitted CONSTRUCT or host command answers on any operands; a tick of the invariant completes. -/
theorem admittedCommandsAlwaysAnswer : Obligations.AdmittedCommandsAlwaysAnswer := by
  intro i s hinv hf
  refine ⟨?construct, ?host, ?tick⟩
  case construct =>
    rintro hm hd ⟨pin, cc, rfl⟩
    exact exec_construct_answers pin cc ⟨hf, hm, constructed_eq_false.1 hd⟩
  case host =>
    intro hm hd
    obtain ⟨d, hd⟩ := constructed_iff.1 hd
    exact exec_host_answers ⟨hf, hm, hd⟩
  case tick =>
    rintro hm rfl
    obtain ⟨d, f, he⟩ := exec_tick_of_inv hinv hm
    exact ⟨_, he, by rw [he]; simp [goodAnswer, hf]⟩

/-- Settles O33: ARM's own check of the tables. -/
theorem armEntersSteadyOnceTablesAreBuilt : Obligations.ArmEntersSteadyOnceTablesAreBuilt := fun _ _ hready =>
  ⟨exec_arm hready, exec_arm_unbuilt hready⟩

/-- Settles O42: no command is admitted, and of the three kinds of step only power-on does not need FAULT = 0. -/
theorem faultedStateIsLeftByPowerOnOnly : Obligations.FaultedStateIsLeftByPowerOnOnly := by
  intro s hfault
  refine ⟨fun i => exec_of_fault i hfault, fun t hstep => ?_⟩
  rcases step_next hstep with ⟨rest, hi, rfl⟩ | ⟨-, hf, -⟩ | ⟨_, _, _, -, hf, -⟩
  · exact ⟨rest, hi, rfl⟩
  · rw [hfault] at hf; cases hf
  · rw [hfault] at hf; cases hf

end

section
/-! Proofs of the statements about every command: which elements it writes (R42), what a fault leaves (R171, R181), and
what no step undoes. -/

namespace Sys2Proof.Machine

/-! ## The encoder -/

/-- What the command `i` keeps of the encoder (R42, the "written by" column). -/
structure DriverKept (i : Instr) (d d' : ChipDriver) : Prop where
  cc         : d'.cc = d.cc
  addresses  : d.buf.map Prod.fst = List.range (bufLen d.cc) → d'.buf.map Prod.fst = List.range (bufLen d.cc)
  brightness : (∀ r g b, i ≠ .setBrightness r g b) →
    d'.bcR = d.bcR ∧ d'.bcG = d.bcG ∧ d'.bcB = d.bcB ∧ ∀ a < 4, readByte d'.buf a = readByte d.buf a
  data       : (∃ r g b, i = .setBrightness r g b) → ∀ a, 4 ≤ a → readByte d'.buf a = readByte d.buf a
  untouched  : i = .write ∨ i = .buildLut ∨ i = .arm → d' = d

theorem driverKept_refl (i : Instr) (d : ChipDriver) : DriverKept i d d :=
  ⟨rfl, id, fun _ => ⟨rfl, rfl, rfl, fun _ _ => rfl⟩, fun _ _ _ => rfl, fun _ => rfl⟩

theorem Progress.Evolves.driverKept {i : Instr} {p q : Progress} (h : p.Evolves q)
    (hi : storesChannels i = true ∨ i = .tick) : DriverKept i p.driver q.driver where
  cc := h.cc
  addresses := h.addresses
  brightness _ := ⟨h.bcR, h.bcG, h.bcB, h.header⟩
  data := by rintro ⟨r, g, b, rfl⟩; simp [storesChannels] at hi
  untouched := by rintro (rfl | rfl | rfl) <;> simp [storesChannels] at hi

theorem setBrightness_driverKept (r g b : Int) (r' g' b' : Brightness) (d : ChipDriver) :
    DriverKept (.setBrightness r g b) d (setBrightness r' g' b' d) where
  cc := rfl
  addresses ha := by
    rw [setBrightness_buf, addresses_memWrite_of_mem (wf_of_addresses ha), ha]
    intro j hj
    rw [ha, List.mem_range, bufLen]
    omega
  brightness hi := absurd rfl (hi r g b)
  data _ a ha := readByte_memWrite_other _ _ (by omega)
  untouched hi := by simp at hi

/-! ## Each element under each effect -/

namespace Effect

variable {s t : State} {i : Instr}

/-- A command that answers a next state had FAULT = 0 before (R171). -/
theorem fault_before (h : Effect s i t) : s.fault = false := by
  cases h with
  | badCount _ _ hr | created _ _ hr => exact hr.1
  | stored _ _ _ _ hr | storeFault _ _ _ _ _ hr => exact hr.1
  | badBrightness _ _ _ _ hr | brightness _ _ _ _ _ _ _ hr => exact hr.1
  | written _ hr | tablesBuilt _ hr | armed _ hr => exact hr.1
  | ticked _ _ _ hr | tickFault _ _ _ _ hr => exact hr.1

/-- Every command but CONSTRUCT runs on an encoder and leaves one. -/
theorem driver (h : Effect s i t) (hc : ∀ pin cc, i ≠ .construct pin cc) :
    ∃ d d', s.driver = some d ∧ t.driver = some d' ∧ DriverKept i d d' := by
  cases h with
  | badCount pin cc | created pin cc => exact absurd rfl (hc pin cc)
  | stored i d p hi hr hp => exact ⟨d, p.driver, hr.2.2, rfl, hp.driverKept (.inl hi)⟩
  | storeFault i d p c hi hr hp => exact ⟨d, p.driver, hr.2.2, rfl, hp.driverKept (.inl hi)⟩
  | brightness r g b d r' g' b' hr => exact ⟨d, _, hr.2.2, rfl, setBrightness_driverKept r g b r' g' b' d⟩
  | badBrightness _ _ _ d hr => exact ⟨d, d, hr.2.2, hr.2.2, driverKept_refl _ d⟩
  | written d hr | tablesBuilt d hr | armed d hr => exact ⟨d, d, hr.2.2, hr.2.2, driverKept_refl _ d⟩
  | ticked d _ p hr hp => exact ⟨d, p.driver, hr.2.2.1, by simp, hp.driverKept (.inr rfl)⟩
  | tickFault d _ p c hr hp => exact ⟨d, p.driver, hr.2.2.1, rfl, hp.driverKept (.inr rfl)⟩

theorem sequencer (h : Effect s i t) (ht : i ≠ .tick) : t.phase = s.phase ∧ t.idx = s.idx ∧ t.cnt = s.cnt := by
  cases h with
  | ticked | tickFault => exact absurd rfl ht
  | _ => exact ⟨rfl, rfl, rfl⟩

theorem lut (h : Effect s i t) (hl : i ≠ .buildLut) : t.lut = s.lut := by
  cases h with
  | tablesBuilt => exact absurd rfl hl
  | ticked => simp
  | _ => rfl

theorem mode (h : Effect s i t) (ha : i ≠ .arm) : t.mode = s.mode := by
  cases h with
  | armed => exact absurd rfl ha
  | ticked => simp
  | _ => rfl

/-- No command leaves STEADY (R35). -/
theorem mode_steady (h : Effect s i t) (hm : s.mode = .steady) : t.mode = .steady := by
  by_cases ha : i = .arm
  · subst ha
    cases h with
    | armed => rfl
    | stored _ _ _ hi | storeFault _ _ _ _ hi => cases hi
  · rw [h.mode ha, hm]

theorem frames (h : Effect s i t) (hw : i ≠ .write) (hf : i ≠ .fadeIn) (ht : i ≠ .tick) : t.frames = s.frames := by
  cases h with
  | written => exact absurd rfl hw
  | ticked | tickFault => exact absurd rfl ht
  | stored _ _ _ _ _ _ hq | storeFault _ _ _ _ _ _ _ hq => exact (hq.resolve_left hf).1
  | _ => rfl

theorem pauses (h : Effect s i t) (hf : i ≠ .fadeIn) : t.pauses = s.pauses := by
  cases h with
  | stored _ _ _ _ _ _ hq | storeFault _ _ _ _ _ _ _ hq => exact (hq.resolve_left hf).2
  | ticked _ _ _ _ _ hq => simpa using hq
  | tickFault _ _ _ _ _ _ hq => exact hq
  | _ => rfl

theorem inbox (h : Effect s i t) : t.inbox = s.inbox := by
  cases h with
  | ticked => simp
  | _ => rfl

theorem record (h : Effect s i t) (hf : t.fault = false) : t.faultCode = s.faultCode ∧ t.faultOp = s.faultOp := by
  cases h with
  | badCount | storeFault | badBrightness | tickFault => cases hf
  | ticked => simp
  | _ => exact ⟨rfl, rfl⟩

/-- A command only appends to FRAMES (R40, R65). -/
theorem frames_prefix (h : Effect s i t) : s.frames <+: t.frames := by
  have evolved {d : ChipDriver} {p : Progress} (hp : (begin s d).Evolves p) : s.frames <+: p.frames := by
    obtain ⟨fs, hfs, -⟩ := hp.frames
    exact ⟨fs, hfs.symm⟩
  cases h with
  | stored _ _ _ _ _ hp | storeFault _ _ _ _ _ _ hp => exact evolved hp
  | written => exact List.prefix_append _ _
  | ticked _ _ _ _ hp => simpa using evolved hp
  | tickFault _ _ _ _ _ hp => exact evolved hp
  | _ => exact List.prefix_rfl

end Effect

/-! ## Faults -/

/-- The commands that can take a fault (R172). -/
def canFault : Instr → Bool
  | .write => false
  | .fadeIn => false
  | .buildLut => false
  | .arm => false
  | .tick => false
  | _ => true

theorem canFault_of_storesChannels {i : Instr} (hi : storesChannels i = true) (hne : i ≠ .fadeIn) :
    canFault i = true := by
  cases i with
  | fadeIn => exact absurd rfl hne
  | construct | setBrightness | setChannel16 | setLed16 | setLed8 | ledsSet16 | ledsSet8 => rfl
  | write | buildLut | arm | tick => cases hi

/-- What an LED command that took a fault leaves of the encoder (R181). -/
def LedFault (s t : State) (led : Int) : Prop :=
  t.faultCode = .channelIndex ∧ t.driver = s.driver ∨
  t.faultCode = .pwmValue ∧ 0 ≤ led ∧
    ∃ d d', s.driver = some d ∧ t.driver = some d' ∧ LedPartlyStored d d' led.toNat

section Faults

variable {s t : State}

/-- In a state of the invariant FADE_IN and TICK take no fault, so a command that took one can fault, and it wrote
the encoder and the fault record only (R171, R173). -/
theorem Effect.fault_entry {i : Instr} (h : Effect s i t) (hinv : Inv s) (hf : t.fault = true) :
    canFault i = true ∧
      t = { s with driver := t.driver, fault := true, faultCode := t.faultCode, faultOp := codeOf i } := by
  have hbefore := h.fault_before
  cases h with
  | badCount | badBrightness => exact ⟨rfl, rfl⟩
  | storeFault i d p c hi hr hp hq hc hcc =>
    have hne : i ≠ .fadeIn := fun e => by
      have := hcc e
      have := twelve_le_cc (hinv.driver d hr.2.2)
      omega
    obtain ⟨hframes, hpauses⟩ := hq.resolve_left hne
    exact ⟨canFault_of_storesChannels hi hne, by simp [raiseFault, commit, hframes, hpauses]⟩
  | tickFault d _ _ _ hr _ _ hcc =>
    have := twelve_le_cc (hinv.driver d hr.2.2.1)
    omega
  | ticked => simp [hbefore] at hf
  | _ => cases hbefore.symm.trans hf

theorem construct_fault {pin cc : Int} (h : exec (.construct pin cc) s = .next t) (hf : t.fault = true) :
    t.faultCode = .channelCount ∧ t.driver = s.driver := by
  obtain ⟨hr, ⟨-, rfl⟩ | ⟨-, rfl⟩⟩ := construct_next h
  · exact ⟨rfl, rfl⟩
  · cases hr.1.symm.trans hf

theorem setBrightness_fault {r g b : Int} (h : exec (.setBrightness r g b) s = .next t) (hf : t.fault = true) :
    t.faultCode = .brightnessValue ∧ t.driver = s.driver := by
  obtain ⟨d, hr, rfl | ⟨_, _, _, rfl⟩⟩ := setBrightness_next h
  · exact ⟨rfl, rfl⟩
  · cases hr.1.symm.trans hf

theorem setChannel16_fault {ch v16 : Int} (h : exec (.setChannel16 ch v16) s = .next t) (hf : t.fault = true) :
    (t.faultCode = .channelIndex ∨ t.faultCode = .pwmValue) ∧ t.driver = s.driver := by
  obtain ⟨d, hr, rfl⟩ := setChannel16_next h
  rcases storeChannel_cases .direct16 ch v16 (begin s d) with e | e | ⟨-, -, e⟩ <;> rw [e] at hf ⊢
  · exact ⟨.inl rfl, hr.2.2.symm⟩
  · exact ⟨.inr rfl, hr.2.2.symm⟩
  · cases hr.1.symm.trans hf

theorem ledInstr_fault {form : OperandForm} {i r g b : Int} (hinv : Inv s)
    (h : exec (ledInstr form i r g b) s = .next t) (hf : t.fault = true) : LedFault s t i := by
  obtain ⟨d, hr, rfl⟩ := ledInstr_next h
  have hdriver := hinv.driver d hr.2.2
  cases hc : (storeLed form i r g b (begin s d)).raised with
  | none =>
    rw [finish_of_none hc] at hf
    cases hr.1.symm.trans hf
  | some c =>
    rw [finish_of_some hc]
    have h3 : d.cc % 3 = 0 := by have := hdriver.ccMultiple; omega
    rcases storeLed_raised rfl h3 hdriver.addresses hc with ⟨rfl, hd⟩ | ⟨rfl, hi, hd⟩
    · exact .inl ⟨rfl, by simp [hd, hr.2.2]⟩
    · exact .inr ⟨rfl, hi, d, _, hr.2.2, rfl, hd⟩

end Faults

end Sys2Proof.Machine

open Sys2Proof Sys2Proof.Machine

/-- Settles O40: each clause is what the effects keep of one element. -/
theorem onlyTheNamedCommandsWriteEachElement : Obligations.OnlyTheNamedCommandsWriteEachElement := by
  intro i s t hexec
  have he := exec_effect hexec
  refine ⟨?cc, ?brightness, ?data, ?untouched, he.sequencer, he.lut, he.mode, he.frames, he.pauses, he.inbox,
    he.record⟩
  case cc =>
    intro hc
    obtain ⟨d, d', hd, hd', hkept⟩ := he.driver hc
    simp [State.constructed, hd, hd', hkept.cc]
  case brightness =>
    intro hc hb
    obtain ⟨d, d', hd, hd', hkept⟩ := he.driver hc
    obtain ⟨hR, hG, hB, hheader⟩ := hkept.brightness hb
    exact ⟨by simp [hd, hd', hR], by simp [hd, hd', hG], by simp [hd, hd', hB],
      fun a ha => by simp [hd, hd', hheader a ha]⟩
  case data =>
    rintro ⟨r, g, b, rfl⟩ a ha
    obtain ⟨d, d', hd, hd', hkept⟩ := he.driver fun _ _ e => by cases e
    simp [hd, hd', hkept.data ⟨r, g, b, rfl⟩ a ha]
  case untouched =>
    intro hi
    obtain ⟨d, d', hd, hd', hkept⟩ := he.driver (by rintro _ _ rfl; simp at hi)
    rw [hd, hd', hkept.untouched hi]

/-- Settles O41: the entry writes the encoder and the record only; the cause and the encoder are each command's own. -/
theorem faultEntryRecordsOnlyTheCommandAndCause : Obligations.FaultEntryRecordsOnlyTheCommandAndCause := by
  intro i s t hinv hexec hf ledFault
  have he := exec_effect hexec
  obtain ⟨hcan, hentry⟩ := he.fault_entry hinv hf
  refine ⟨he.fault_before, hentry, ?_⟩
  cases i with
  | construct => exact construct_fault hexec hf
  | setBrightness => exact setBrightness_fault hexec hf
  | setChannel16 => exact setChannel16_fault hexec hf
  | setLed16 => exact ledInstr_fault (form := .direct16) hinv hexec hf
  | setLed8 => exact ledInstr_fault (form := .replicated8) hinv hexec hf
  | ledsSet16 => exact ledInstr_fault (form := .inverted16) hinv hexec hf
  | ledsSet8 => exact ledInstr_fault (form := .inverted8) hinv hexec hf
  | write | fadeIn | buildLut | arm | tick => cases hcan

/-- Settles O43: a wait keeps FRAMES and a command only appends to them. -/
theorem framesAreAppendOnly : Obligations.FramesAreAppendOnly := by
  intro s t hpower hstep
  rcases step_next hstep with ⟨rest, hi, -⟩ | ⟨-, -, rfl⟩ | ⟨_, rest, i, -, -, -, he⟩
  · exact absurd hi (hpower rest)
  · exact List.prefix_rfl
  · exact (exec_effect he).frames_prefix

/-- Settles O44: CONSTRUCT's encoder has the buffer of its count, and the other commands keep the addresses. -/
theorem bufferIsNeverResized : Obligations.BufferIsNeverResized := by
  refine ⟨fun pin cc s t hexec => ?_, fun i s t d hd haddr hexec => ?_⟩
  · obtain ⟨hr, ⟨-, rfl⟩ | ⟨hc, rfl⟩⟩ := construct_next hexec
    · refine ⟨hr.2.2, fun d hd => ?_⟩
      cases hr.2.2.symm.trans hd
    · refine ⟨hr.2.2, fun d hd => ?_⟩
      cases hd
      exact ⟨rfl, (newDriver_inv (cc := cc.toNat) (by omega) (by omega)).addresses⟩
  · have hc : ∀ pin cc, i ≠ .construct pin cc := by
      rintro pin cc rfl
      cases (construct_next hexec).1.2.2.symm.trans hd
    obtain ⟨e, d', he, hd', hkept⟩ := (exec_effect hexec).driver hc
    obtain rfl : d = e := Option.some.inj (hd.symm.trans he)
    exact ⟨d', hd', hkept.cc, (hkept.addresses haddr).trans haddr.symm⟩

/-- Settles O45: no command leaves STEADY, and the invariant, which every step keeps, has no fault there. -/
theorem steadyStateNeverFaults : Obligations.SteadyStateNeverFaults := by
  intro s t hinv hm hpower hstep
  have hsteady : t.mode = .steady := by
    rcases step_next hstep with ⟨rest, hi, -⟩ | ⟨-, -, rfl⟩ | ⟨_, rest, i, -, -, -, he⟩
    · exact absurd hi (hpower rest)
    · exact hm
    · exact (exec_effect he).mode_steady hm
  exact ⟨hsteady, (everyStepKeepsTheInvariant s t hinv hstep).noFault hsteady⟩

end

section
/-! Proofs of the statements about the wire format (R17, R55, R73, R76) and the header. -/

namespace Sys2Proof.Machine

variable {s : State} {d : ChipDriver} {m : Memory}

/-! ## The header word -/

/-- The header's fields, read back from the word (R71, R72). -/
theorem hdr_fields (r g b : Brightness) :
    hdr r g b / 2 ^ 21 = top11 ∧ hdr r g b / 2 ^ 14 % 128 = r.toNat ∧ hdr r g b / 2 ^ 7 % 128 = g.toNat ∧
      hdr r g b % 128 = b.toNat := by
  have := r.isLt; have := g.isLt; have := b.isLt
  rw [hdr_eq]
  omega

/-- Byte `j` of the header, most significant first (R53, R73). -/
theorem headerByte (r g b : Brightness) (m : Memory) {j : Nat} (hj : j < 4) :
    (readByte (memWrite 0 4 (hdr r g b) m) j).map (·.toNat) = some (hdr r g b / 2 ^ (8 * (3 - j)) % 256) := by
  have h := readByte_memWrite m 0 (n := 4) (j := j) (hdr r g b) hj
  rw [Nat.zero_add] at h
  rw [h, Nat.shiftRight_eq_div_pow]
  rfl

/-! ## Big-endian reads -/

/-- A read of one byte more (R15). -/
theorem memRead_succ_iff {a n v : Nat} : memRead m a (n + 1) = some v ↔
    ∃ (hi : Nat) (lo : Byte), memRead m a n = some hi ∧ readByte m (a + n) = some lo ∧ v = 256 * hi + lo.toNat := by
  have hvalue (hi : Nat) (lo : Byte) : hi <<< 8 ||| lo.toNat = 256 * hi + lo.toNat := by
    rw [← Nat.shiftLeft_add_eq_or_of_lt lo.isLt, Nat.shiftLeft_eq, Nat.mul_comm]
  rw [memRead]
  cases memRead m a n with
  | none => simp
  | some hi =>
    cases readByte m (a + n) with
    | none => simp
    | some lo => simp [hvalue, eq_comm]

/-- A four-byte read that has a value is its four bytes (R15). -/
theorem memRead_four {a v : Nat} (h : memRead m a 4 = some v) :
    ∃ b0 b1 b2 b3 : Byte, readByte m a = some b0 ∧ readByte m (a + 1) = some b1 ∧ readByte m (a + 2) = some b2 ∧
      readByte m (a + 3) = some b3 ∧
      v = b0.toNat * 2 ^ 24 + b1.toNat * 2 ^ 16 + b2.toNat * 2 ^ 8 + b3.toNat := by
  obtain ⟨v3, b3, hv3, h3, rfl⟩ := memRead_succ_iff.1 h
  obtain ⟨v2, b2, hv2, h2, rfl⟩ := memRead_succ_iff.1 hv3
  obtain ⟨v1, b1, hv1, h1, rfl⟩ := memRead_succ_iff.1 hv2
  obtain ⟨v0, b0, hv0, h0, rfl⟩ := memRead_succ_iff.1 hv1
  cases hv0
  exact ⟨b0, b1, b2, b3, h0, h1, h2, h3, by ring⟩

/-- Two bytes make a 16-bit value. -/
theorem memRead_two_of_bytes {a : Nat} {hi lo : Byte} (hhi : readByte m a = some hi)
    (hlo : readByte m (a + 1) = some lo) : memRead m a 2 = some (256 * hi.toNat + lo.toNat) := by
  have hone : memRead m a 1 = some hi.toNat := memRead_succ_iff.2 ⟨0, hi, rfl, hhi, by simp⟩
  exact memRead_succ_iff.2 ⟨hi.toNat, lo, hone, hlo, rfl⟩

/-- Every channel of a buffer of BUF_LEN bytes has a 16-bit value (R55). -/
theorem channel_isSome (h : d.buf.map Prod.fst = List.range (bufLen d.cc)) {ch : Nat} (hch : ch < d.cc) :
    ∃ v < 65536, channel d ch = some v := by
  obtain ⟨-, hend⟩ := offset_bounds hch
  obtain ⟨hi, hhi⟩ := readByte_isSome h (k := offset d.cc ch) (by omega)
  obtain ⟨lo, hlo⟩ := readByte_isSome h hend
  exact ⟨256 * hi.toNat + lo.toNat, by have := hi.isLt; have := lo.isLt; omega, memRead_two_of_bytes hhi hlo⟩

/-! ## Writing what is there -/

theorem writeByte_of_readByte {a : Nat} {b : Byte} (hwf : Memory.wf m) (h : readByte m a = some b) :
    writeByte m a b = m := by
  refine memory_ext (writeByte_keeps_wf hwf a b) hwf fun k => ?_
  by_cases hk : k = a
  · subst hk; rw [readByte_writeByte_self, h]
  · exact readByte_writeByte_other m b hk

/-- Writing the value that is there changes nothing (R122). -/
theorem memWrite_of_memRead {a n v : Nat} (hwf : Memory.wf m) (h : memRead m a n = some v) : memWrite a n v m = m := by
  induction n generalizing v with
  | zero => rfl
  | succ n ih =>
    obtain ⟨hi, lo, hhi, hlo, rfl⟩ := memRead_succ_iff.1 h
    have hshift : (256 * hi + lo.toNat) >>> 8 = hi := by
      rw [Nat.shiftRight_eq_div_pow]; have := lo.isLt; omega
    have hbyte : BitVec.ofNat 8 (256 * hi + lo.toNat) = lo := BitVec.eq_of_toNat_eq (by
      rw [BitVec.toNat_ofNat]; have := lo.isLt; omega)
    rw [memWrite, hshift, hbyte, ih hhi, writeByte_of_readByte hwf hlo]

/-- Setting the brightness to what it is changes nothing (R122). -/
theorem setBrightness_same (h : DriverInv d) : setBrightness d.bcR d.bcG d.bcB d = d := by
  rw [setBrightness, memWrite_of_memRead (wf_of_addresses h.addresses) h.header]

end Sys2Proof.Machine

open Sys2Proof Sys2Proof.Machine

/-- Settles O9: the helper functions as arithmetic; the header's sum is below 2^32 once MAGIC5 is cut. -/
theorem helperFunctionsAreTheSpecs : Obligations.HelperFunctionsAreTheSpecs := by
  refine ⟨fun cc ch h => ?_, fun v h => rep8_eq (by omega), fun v h => ?_, fun v h => ?_, fun r g b => ?_⟩
  · rw [offset]; omega
  · rw [inv8]; omega
  · rw [inv16]; omega
  · have := Config.magic5.isLt; have := Config.cfg7.isLt; have := r.isLt; have := g.isLt; have := b.isLt
    rw [hdr, hdrOf_eq]
    omega

/-- Settles O10: the bytes cut out of the header's sum of fields, in which MAGIC5 and CFG7 stand in TOP11 only. -/
theorem headerBytesAreTheSpecs : Obligations.HeaderBytesAreTheSpecs := by
  refine ⟨fun r g b m => ?_, fun m m' c c' r g b h => ?_⟩
  · have := top11_lt; have := r.isLt; have := g.isLt; have := b.isLt
    refine ⟨(headerByte r g b m (by decide)).trans ?_, (headerByte r g b m (by decide)).trans ?_,
      (headerByte r g b m (by decide)).trans ?_, (headerByte r g b m (by decide)).trans ?_⟩ <;>
    · rw [hdr_eq, Option.some.injEq]
      omega
  · rw [hdrOf_eq, hdrOf_eq]
    omega

/-- Settles O11: the offsets run from BUF_LEN-2 down to 4 in steps of two. -/
theorem channelsTileTheDataBytes : Obligations.ChannelsTileTheDataBytes := by
  intro cc hcc
  refine ⟨fun ch hch => ?bounds, ?lowest, ?highest, fun ch hch => ?step, fun ch ch' a hch hch' ha ha' => ?apart,
    fun a hlow hhigh => ?cover⟩
  case bounds => simp only [offset, bufLen]; omega
  case lowest => rw [offset]; omega
  case highest => rw [offset, bufLen]; omega
  case step => simp only [offset]; omega
  case apart =>
    by_contra hne
    have := offset_apart hch hch' hne
    simp only [byteOfChannel] at ha ha'
    omega
  case cover =>
    rw [bufLen] at hhigh
    refine ⟨cc - 1 - (a - 4) / 2, by omega, ?_⟩
    simp only [byteOfChannel, offset]
    omega

/-- Settles O12: the header word is the buffer's first four bytes, and each channel is read where the buffer has it. -/
theorem frameCarriesHeaderAndEveryChannel : Obligations.FrameCarriesHeaderAndEveryChannel := by
  intro d h
  have hframe := frameOf_getElem h.addresses
  refine ⟨frameOf_length h.addresses, ?_, fun ch hch => ?_⟩
  · obtain ⟨b0, b1, b2, b3, h0, h1, h2, h3, hword⟩ := memRead_four h.header
    refine ⟨b0, b1, b2, b3, ?_, ?_⟩
    · simp [List.take_add_one, hframe, h0, h1, h2, h3]
    · rw [← hword]
      exact ⟨rfl, hdr_fields _ _ _⟩
  · obtain ⟨v, hlt, hv⟩ := channel_isSome h.addresses hch
    exact ⟨v, hlt, hv, (frameChannel_frameOf h.addresses ch).trans hv⟩

end

section
/-! Proofs of the statements about the encoder's commands (40_chipdriver.md) and BUILD_LUT. -/

namespace Sys2Proof.Machine

variable {s : State} {d : ChipDriver}

/-! ## A fault -/

theorem commit_begin (hd : s.driver = some d) : commit s (begin s d) = s := by
  rw [commit, begin_driver, ← hd]; rfl

/-- The end of a command whose first check faulted: nothing but the record is written (R171). -/
theorem finish_raised (op : Code) (c : FaultCode) (hd : s.driver = some d) :
    finish op s { begin s d with raised := some c } = raiseFault op c s := by
  rw [finish_of_some rfl]
  exact congrArg (raiseFault op c) (commit_begin hd)

theorem recordedAs_finish (op op' : Code) (hf : s.fault = false) (p : Progress) :
    recordedAs op (.next (finish op' s p)) = .next (finish op s p) := by
  cases h : p.raised with
  | none => rw [finish_of_none h, finish_of_none h]; simp [recordedAs, hf]
  | some c => rw [finish_of_some h, finish_of_some h]; rfl

/-! ## The LED commands -/

theorem inRange_iff {max v : Int} : inRange max v = true ↔ 0 ≤ v ∧ v ≤ max := by simp [inRange]

theorem inRange_eq_false {max v : Int} : inRange max v = false ↔ v < 0 ∨ v > max := by
  rw [← Bool.not_eq_true, inRange_iff]; omega

theorem componentsInRange_iff {max r g b : Int} : componentsInRange max r g b = true ↔
    (0 ≤ r ∧ r ≤ max) ∧ (0 ≤ g ∧ g ≤ max) ∧ 0 ≤ b ∧ b ≤ max := by
  simp [componentsInRange, inRange_iff, and_assoc]

theorem componentsInRange_eq_false {max r g b : Int} : componentsInRange max r g b = false ↔
    r < 0 ∨ r > max ∨ g < 0 ∨ g > max ∨ b < 0 ∨ b > max := by
  rw [← Bool.not_eq_true, componentsInRange_iff]; omega

/-- An LED command on operands in range stores the channel values its form makes of them (R110, R114, R130, R134). -/
theorem exec_ledInstr_stores (form : OperandForm) {i r g b : Int} (h : HostReady s d) (hi : 0 ≤ i)
    (hcc : 3 * i + 2 < d.cc) (hv : componentsInRange (operandMax form) r g b = true) :
    ∃ d' : ChipDriver, exec (ledInstr form i r g b) s = .next { s with driver := some d' } ∧
      LedStored d d' i.toNat (channelValue form r.toNat) (channelValue form g.toNat) (channelValue form b.toNat) := by
  obtain ⟨hr, hg, hb⟩ := componentsInRange_iff.1 hv
  have value {v : Int} (hv : 0 ≤ v ∧ v ≤ operandMax form) : channelValue form v.toNat < 65536 :=
    channelValue_lt (by omega)
  exact ⟨_, exec_ledInstr_inRange form h ⟨hi, hcc⟩ hr hg hb,
    putLed_stores d (by omega) (value hr) (value hg) (value hb)⟩

/-- An LED command whose stores raised a fault: what they had written stays, and the record is written (R181). -/
theorem exec_ledInstr_fault (form : OperandForm) {i r g b : Int} {d' : ChipDriver} {c : FaultCode} (h : HostReady s d)
    (hstore : storeLed form i r g b (begin s d) = { (begin s d).withDriver d' with raised := some c }) :
    exec (ledInstr form i r g b) s = .next { s with
      driver := some d', fault := true, faultCode := c, faultOp := codeOf (ledInstr form i r g b) } := by
  rw [exec_ledInstr form i r g b h, hstore]; rfl

/-- A channel store depends on its form and its operand through the channel value only. -/
theorem storeChannel_congr {form form' : OperandForm} {v v' : Int} (hv : 0 ≤ v ∧ v ≤ operandMax form)
    (hv' : 0 ≤ v' ∧ v' ≤ operandMax form') (h : channelValue form v.toNat = channelValue form' v'.toNat) (c : Int) :
    storeChannel form c v = storeChannel form' c v' := by
  funext p
  by_cases hc : c < 0 ∨ c ≥ p.driver.cc
  · rw [storeChannel_badChannel v hc, storeChannel_badChannel v' hc]
  · rw [storeChannel_inRange (by omega) hv, storeChannel_inRange (by omega) hv', h]

/-- Two LED commands whose operands make the same channel values answer the same, in every state, each recording a
fault as its own (R116, R137). -/
theorem exec_ledInstr_congr (form form' : OperandForm) (i : Int) {r g b r' g' b' : Int}
    (hr : storeChannel form (3 * i) r = storeChannel form' (3 * i) r')
    (hg : storeChannel form (3 * i + 1) g = storeChannel form' (3 * i + 1) g')
    (hb : storeChannel form (3 * i + 2) b = storeChannel form' (3 * i + 2) b') (s : State) :
    exec (ledInstr form i r g b) s =
      recordedAs (codeOf (ledInstr form i r g b)) (exec (ledInstr form' i r' g' b') s) := by
  have host (form : OperandForm) (r g b : Int) : exec (ledInstr form i r g b) s = admitHost s fun d =>
      .next (finish (codeOf (ledInstr form i r g b)) s (storeLed form i r g b (begin s d))) := by
    cases form <;> rfl
  have hstore (p : Progress) : storeLed form i r g b p = storeLed form' i r' g' b' p := by
    rw [storeLed, storeLed, hr, hg, hb]
  rw [host form, host form']
  rcases admitHost_cases s fun d =>
    .next (finish (codeOf (ledInstr form' i r' g' b')) s (storeLed form' i r' g' b' (begin s d))) with
    ⟨hf, e⟩ | ⟨hf, hm, e⟩ | ⟨hf, hm, hd, e⟩ | ⟨d, hd, e⟩
  · rw [e]; simp [admitHost, hf, recordedAs]
  · rw [e]; simp [admitHost, hf, hm, recordedAs]
  · rw [e]; simp [admitHost, hf, hm, hd, recordedAs]
  · rw [e, admitHost_of_ready hd, recordedAs_finish _ _ hd.1, hstore]

end Sys2Proof.Machine

open Sys2Proof Sys2Proof.Machine

/-! ## CONSTRUCT -/

/-- Settles O13: the new encoder meets its invariant, and the header reaches none of the zero data bytes. -/
theorem constructCreatesTheEncoder : Obligations.ConstructCreatesTheEncoder := by
  intro pin cc s hready hpos h12
  have hinv := newDriver_inv (cc := cc.toNat) (by omega) (by omega)
  refine ⟨newDriver cc.toNat, exec_construct pin cc hready ⟨hpos, h12⟩, rfl, rfl, rfl, rfl, hinv.addresses,
    hinv.header, fun a hlow hhigh => ?_⟩
  rw [newDriver, setBrightness_buf, readByte_memWrite_other _ _ (by omega), readByte_createBuffer]
  exact if_pos hhigh

/-- Settles O14: the count's check, which is CONSTRUCT's only one. -/
theorem constructFaultsOnABadCount : Obligations.ConstructFaultsOnABadCount := fun pin cc _ =>
  exec_construct_bad pin cc

/-! ## SET_CHANNEL_16 -/

/-- Settles O15: the state with one channel put, and the reads of `putChannel`. -/
theorem setChannelStoresOneChannelOnly : Obligations.SetChannelStoresOneChannelOnly := by
  intro ch v16 s d hready hch hcc hlow hhigh
  have hself := channel_putChannel_self ch.toNat (v := v16.toNat) d (by omega)
  have hlowByte : BitVec.ofNat 8 (v16.toNat % 256) = BitVec.ofNat 8 v16.toNat := BitVec.eq_of_toNat_eq (by simp)
  refine ⟨putChannel ch.toNat v16.toNat d, exec_setChannel16_inRange hready ⟨hch, hcc⟩ ⟨hlow, hhigh⟩,
    rfl, rfl, rfl, rfl, hself, readByte_putChannel_high _ _ _, ?_, fun a ha ha' => ?_, fun c hc hne => ?_⟩
  · rw [hlowByte, readByte_putChannel_low]
  · exact readByte_putChannel_other _ _ (by simp [byteOfChannel, ha, ha'])
  · exact channel_putChannel_other _ _ (by omega) hc hne

/-- Settles O17: the channel's check, then the value's, each before any write. -/
theorem setChannelFaultsWriteNothing : Obligations.SetChannelFaultsWriteNothing := by
  intro ch v16 s d hready
  refine ⟨fun hch => ?_, fun hch hv => ?_⟩
  · rw [exec_setChannel16 ch v16 hready, storeChannel_badChannel v16 hch, finish_raised _ _ hready.2.2]; rfl
  · rw [exec_setChannel16 ch v16 hready, storeChannel_badValue hch hv, finish_raised _ _ hready.2.2]; rfl

/-! ## The LED commands -/

/-- Settles O18: the three stores one after the other, and the code recorded last. -/
theorem setLed16IsThreeChannelWrites : Obligations.SetLed16IsThreeChannelWrites := by
  intro i r g b s d hready
  rw [exec_setChannel16 _ _ hready, unlessFaulted_setChannel16 hready _ _ (by simp) (by simp),
    unlessFaulted_setChannel16 hready _ _ (by rw [thenDo_frames (by simp)]; simp)
      (by rw [thenDo_pauses (by simp)]; simp), recordedAs_finish _ _ hready.1]
  exact exec_ledInstr .direct16 i r g b hready

/-- Settles O19: the direct form stores the operand. -/
theorem setLed16StoresTheValues : Obligations.SetLed16StoresTheValues := fun _ _ _ _ _ _ hready =>
  exec_ledInstr_stores .direct16 hready

/-- Settles O20: the replicated form stores 257 times the operand. -/
theorem setLed8StoresReplicatedValues : Obligations.SetLed8StoresReplicatedValues := by
  intro i r g b s d hready hi hcc hv
  obtain ⟨hr, hg, hb⟩ := componentsInRange_iff.1 hv
  rw [← channelValue_replicated8 (v := r.toNat) (by omega), ← channelValue_replicated8 (v := g.toNat) (by omega),
    ← channelValue_replicated8 (v := b.toNat) (by omega)]
  exact exec_ledInstr_stores .replicated8 hready hi hcc hv

/-- Settles O21: the inverted form stores 65535 minus the operand. -/
theorem ledsSet16StoresInvertedValues : Obligations.LedsSet16StoresInvertedValues := fun _ _ _ _ _ _ hready =>
  exec_ledInstr_stores .inverted16 hready

/-- Settles O22: the inverted 8-bit form stores 257 times the inverted operand. -/
theorem ledsSet8StoresInvertedReplicatedValues : Obligations.LedsSet8StoresInvertedReplicatedValues := by
  intro i r g b s d hready hi hcc hv
  obtain ⟨hr, hg, hb⟩ := componentsInRange_iff.1 hv
  rw [← channelValue_inverted8 (v := r.toNat) (by omega), ← channelValue_inverted8 (v := g.toNat) (by omega),
    ← channelValue_inverted8 (v := b.toNat) (by omega)]
  exact exec_ledInstr_stores .inverted8 hready hi hcc hv

/-- Settles O23: the checks of the three channel stores, in their order. -/
theorem ledFaultsKeepTheEarlierChannels : Obligations.LedFaultsKeepTheEarlierChannels := by
  intro form i r g b s d hready h12 max faults vr vg
  have hmax : max = operandMax form := by cases form <;> rfl
  have good {v : Int} (hv : inRange max v = true) : 0 ≤ v ∧ v ≤ operandMax form := inRange_iff.1 (hmax ▸ hv)
  have bad {v : Int} (hv : inRange max v = false) : v < 0 ∨ v > operandMax form := inRange_eq_false.1 (hmax ▸ hv)
  refine ⟨fun hi => ?index, fun hi hcc => ⟨fun hr => ?red, fun hr hg => ?green, fun hr hg hb => ?blue⟩⟩
  case index => exact exec_ledInstr_fault form hready (storeLed_badIndex r g b rfl (by rw [begin_driver]; omega))
  case red => exact exec_ledInstr_fault form hready (storeLed_badRed g b rfl ⟨hi, hcc⟩ (bad hr))
  case green => exact exec_ledInstr_fault form hready (storeLed_badGreen b rfl ⟨hi, hcc⟩ (good hr) (bad hg))
  case blue => exact exec_ledInstr_fault form hready (storeLed_badBlue rfl ⟨hi, hcc⟩ (good hr) (good hg) (bad hb))

/-- Settles O24: replicating before the command or in it makes the same channel values. -/
theorem setLed8IsSetLed16OfReplicatedValues : Obligations.SetLed8IsSetLed16OfReplicatedValues := by
  intro i r g b s hr hg hb
  have replicated {v : Nat} (hv : v ≤ 255) (c : Int) :
      storeChannel .replicated8 c v = storeChannel .direct16 c (v <<< 8 ||| v : Nat) := by
    have hrep : v <<< 8 ||| v = 257 * v := rep8_eq (by omega)
    refine storeChannel_congr (by simp only [operandMax]; omega) (by simp only [operandMax]; omega) ?_ c
    rfl
  exact exec_ledInstr_congr .replicated8 .direct16 i (replicated hr _) (replicated hg _) (replicated hb _) s

/-- Settles O25: both ways send 257 * (255 - v). -/
theorem inversionCommutesWithReplication : Obligations.InversionCommutesWithReplication := by
  have value {v : Nat} (hv : v ≤ 255) : rep8 (inv8 v) = 257 * (255 - v) := channelValue_inverted8 (by omega)
  have commutes {v : Nat} (hv : v ≤ 255) : rep8 (inv8 v) = inv16 (rep8 v) := by
    rw [value hv, rep8_eq (by omega), inv16]; omega
  refine ⟨fun v hv => ⟨commutes hv, value hv⟩, fun i r g b s hr hg hb => ?_⟩
  have inverted {v : Nat} (hv : v ≤ 255) (c : Int) :
      storeChannel .inverted8 c v = storeChannel .inverted16 c (rep8 v : Nat) := by
    have hrep : rep8 v = 257 * v := rep8_eq (by omega)
    refine storeChannel_congr (by simp only [operandMax]; omega) (by simp only [operandMax]; omega) ?_ c
    exact commutes hv
  exact exec_ledInstr_congr .inverted8 .inverted16 i (inverted hr _) (inverted hg _) (inverted hb _) s

/-! ## SET_BRIGHTNESS and WRITE -/

/-- Settles O26: the three values fit in their registers, and the header's write ends at byte 3. -/
theorem setBrightnessRewritesTheHeader : Obligations.SetBrightnessRewritesTheHeader := by
  intro r7 g7 b7 s d hready
  refine ⟨fun hv => ?_, fun hv => exec_setBrightness_bad hready (componentsInRange_eq_false.1 hv)⟩
  have hin := componentsInRange_iff.1 hv
  have register {v : Int} (h : 0 ≤ v ∧ v ≤ 127) : ((BitVec.ofNat 7 v.toNat).toNat : Int) = v := by
    rw [BitVec.toNat_ofNat]; omega
  refine ⟨_, exec_setBrightness hready hin, rfl, register hin.1, register hin.2.1, register hin.2.2, ?_,
    fun a ha => readByte_memWrite_other _ _ (by omega)⟩
  rw [setBrightness_buf, memRead_memWrite, Nat.mod_eq_of_lt (hdr_lt _ _ _)]; rfl

/-- Settles O27: under the encoder's invariant the header written is the header that is there. -/
theorem settingTheSameBrightnessChangesNothing : Obligations.SettingTheSameBrightnessChangesNothing := by
  have same (s : State) (d : ChipDriver) (hready : HostReady s d) (hinv : DriverInv d) :
      exec (.setBrightness d.bcR.toNat d.bcG.toNat d.bcB.toNat) s = .next s := by
    have := d.bcR.isLt; have := d.bcG.isLt; have := d.bcB.isLt
    rw [exec_setBrightness hready (by omega)]
    simp only [Int.toNat_natCast, BitVec.ofNat_toNat, BitVec.setWidth_eq]
    rw [setBrightness_same hinv, ← hready.2.2]
  refine ⟨same, fun pin cc s t hready hpos h12 hexec => ?_⟩
  rw [exec_construct pin cc hready ⟨hpos, h12⟩] at hexec
  cases hexec
  exact same _ (newDriver cc.toNat) ⟨hready.1, hready.2.1, rfl⟩ (newDriver_inv (by omega) (by omega))

/-- Settles O29: WRITE changes nothing that the next WRITE reads. -/
theorem twoWritesEmitIdenticalFrames : Obligations.TwoWritesEmitIdenticalFrames := by
  intro s d hready
  refine ⟨frameOf d.buf, _, _, exec_write hready, exec_write (d := d) hready, ?_⟩
  simp

/-! ## BUILD_LUT -/

/-- Settles O32: the tables do not depend on the state, so a second BUILD_LUT builds the same. -/
theorem buildLutFillsTheTables : Obligations.BuildLutFillsTheTables := fun _ _ hready =>
  ⟨buildTables Config.color, exec_buildLut hready,
    fun a => ⟨buildTable_get _ a, buildTable_get _ a, buildTable_get _ a⟩, exec_buildLut hready⟩

end

section
/-! Proofs of the statements about FADE_IN (R141, R142). -/

namespace Sys2Proof.Machine

/-! ## The frames of one level -/

section Level

variable {color : Angle → Byte → Byte → Color} {phase : Vector Angle Config.nLights} {d : ChipDriver}
  {ls : List (Fin Config.nLights)} {level : Nat}

/-- A byte outside channels 0..11 lies before channel 11 or beyond the buffer (R56). -/
theorem outside_channels {cc a : Nat} (hcc : 12 ≤ cc) (h : ∀ ch < 12, ¬ byteOfChannel cc ch a) :
    a < offset cc 11 ∨ bufLen cc ≤ a := by
  by_contra hin
  refine h (cc - 1 - (a - 4) / 2) ?_ ?_ <;> simp only [byteOfChannel, offset, bufLen] at hin ⊢ <;> omega

/-- A light that is not rendered keeps its channels (R107). -/
theorem channel_drawLights_other (hcc : 12 ≤ d.cc) {l : Fin Config.nLights} (hl : l ∉ ls) {j : Nat} (hj : j < 3) :
    channel (drawLights color phase level ls d) (3 * l.val + j) = channel d (3 * l.val + j) := by
  induction ls generalizing d with
  | nil => rfl
  | cons k ls ih =>
    rw [List.mem_cons, not_or] at hl
    have hlt : l.val < 4 := l.isLt
    have hne : l.val ≠ k.val := fun e => hl.1 (Fin.ext e)
    rw [drawLights, ih (by simpa using hcc) hl.2, channel_drawLight_other k _ hcc (by omega) (by omega)]

/-- In PER_LIGHT mode each light's frame shows the lights rendered so far (R141). -/
theorem lightFrames_getElem {k : Nat} (hk : k < ls.length) : (lightFrames color .perLight phase level ls d)[k]? =
    some (frameOf (drawLights color phase level (ls.take (k + 1)) d).buf) := by
  induction ls generalizing d k with
  | nil => cases hk
  | cons l ls ih =>
    cases k with
    | zero => rfl
    | succ k =>
      rw [lightFrames, List.singleton_append, List.getElem?_cons_succ, ih (by simpa using hk), List.take_succ_cons,
        drawLights]

/-- The frame of a level once the lights of `ls` were rendered. -/
def levelFrame (color : Angle → Byte → Byte → Color) (phase : Vector Angle Config.nLights) (level : Nat)
    (ls : List (Fin Config.nLights)) (d : ChipDriver) : Frame :=
  frameOf (drawLights color phase level ls (faded color phase level d)).buf

/-- Frame `4*level + l` of the fade in PER_LIGHT mode (R141). -/
theorem fadeFrames_perLight (hlevel : level < Config.fadeLevels) (l : Fin Config.nLights) :
    (fadeFrames color .perLight phase Config.fadeLevels d)[4 * level + l.val]? =
      some (levelFrame color phase level (lights.take (l.val + 1)) d) := by
  have hl : l.val < 4 := l.isLt
  have h := fadeFrames_getElem color .perLight phase d hlevel (k := l.val) hl
  rw [levelFrames, List.append_nil, lightFrames_getElem (by exact hl)] at h
  exact h

/-- Frame `level` of the fade in PER_LEVEL mode (R141). -/
theorem fadeFrames_perLevel (hlevel : level < Config.fadeLevels) :
    (fadeFrames color .perLevel phase Config.fadeLevels d)[level]? = some (levelFrame color phase level lights d) := by
  have h := fadeFrames_getElem color .perLevel phase d hlevel (k := 0) (by decide)
  rw [framesPerLevel, Nat.one_mul, Nat.add_zero] at h
  exact h

theorem addresses_levelDriver (h : DriverInv d) :
    (drawLights color phase level ls (faded color phase level d)).buf.map Prod.fst = List.range (bufLen d.cc) := by
  have hfaded := addresses_faded (color := color) (phase := phase) level (twelve_le_cc h) h.addresses
  have hdrawn := addresses_drawLights (color := color) (phase := phase) level ls (d := faded color phase level d)
    (by simpa using twelve_le_cc h) (by simpa using hfaded)
  simpa using hdrawn

theorem frameChannel_levelFrame (h : DriverInv d) (ch : Nat) :
    frameChannel d.cc (levelFrame color phase level ls d) ch =
      channel (drawLights color phase level ls (faded color phase level d)) ch := by
  have haddr := addresses_levelDriver (color := color) (phase := phase) (ls := ls) (level := level) h
  have hframe := frameChannel_frameOf (d := drawLights color phase level ls (faded color phase level d))
    (by simpa using haddr) ch
  simpa [levelFrame] using hframe

/-- The frame shows what the buffer shows. -/
theorem levelFrame_shows_iff (h : DriverInv d) {l : Fin Config.nLights} {c : Color} :
    FrameShows d.cc (levelFrame color phase level ls d) l c ↔
      ShowsColor (drawLights color phase level ls (faded color phase level d)) l c := by
  simp only [FrameShows, ShowsColor, frameChannel_levelFrame h]

/-- The lights rendered so far are at this level (R141). -/
theorem levelFrame_shows (h : DriverInv d) (hnd : ls.Nodup) {l : Fin Config.nLights} (hl : l ∈ ls) :
    FrameShows d.cc (levelFrame color phase level ls d) l (fadeColor color phase level l) :=
  (levelFrame_shows_iff h).2 (drawLights_shows hnd (by simpa using twelve_le_cc h) hl)

theorem mem_lights : ∀ l : Fin Config.nLights, l ∈ lights := by decide

theorem lights_nodup : lights.Nodup := by decide

/-- After a level every light is at it. -/
theorem faded_succ_shows (h : DriverInv d) (l : Fin Config.nLights) :
    ShowsColor (faded color phase (level + 1) d) l (fadeColor color phase level l) :=
  drawLights_shows lights_nodup (by simpa using twelve_le_cc h) (mem_lights l)

/-- The lights still to come are at the level before (R141). -/
theorem levelFrame_shows_before (h : DriverInv d) {l : Fin Config.nLights} (hl : l ∉ ls) :
    FrameShows d.cc (levelFrame color phase (level + 1) ls d) l (fadeColor color phase level l) :=
  (levelFrame_shows_iff h).2
    (drawLights_shows.drawLights_keeps hl (by simpa using twelve_le_cc h) (faded_succ_shows h l))

/-- At level 0 the lights still to come are as before the command (R141). -/
theorem frameChannel_levelFrame_zero (h : DriverInv d) {l : Fin Config.nLights} (hl : l ∉ ls) {j : Nat} (hj : j < 3) :
    frameChannel d.cc (levelFrame color phase 0 ls d) (3 * l.val + j) = channel d (3 * l.val + j) :=
  (frameChannel_levelFrame h _).trans (channel_drawLights_other (twelve_le_cc h) hl hj)

/-- The bytes outside channels 0..11 are as before the command (R58). -/
theorem levelFrame_outside (h : DriverInv d) {a : Nat} (ha : ∀ ch < 12, ¬ byteOfChannel d.cc ch a) :
    (levelFrame color phase level ls d)[a]? = readByte d.buf a := by
  have hcc := twelve_le_cc h
  have hout := outside_channels hcc ha
  rw [levelFrame, frameOf_getElem (addresses_levelDriver h), readByte_drawLights _ _ (by simpa using hcc)
    (by simpa using hout), readByte_faded _ hcc hout]

end Level

/-- The lights of a level up to `l` are those rendered when frame `l` is sent. -/
theorem mem_take_lights : ∀ l l' : Fin Config.nLights, l' ∈ lights.take (l.val + 1) ↔ l'.val ≤ l.val := by decide

theorem fadePauses_getElem (mode : FadeWriteMode) (delay before : Nat) {n level : Nat} (h : level < n) :
    (fadePauses mode delay before n)[level]? = some ⟨before + framesPerLevel mode * (level + 1), delay⟩ := by
  simp [fadePauses, h]

end Sys2Proof.Machine

open Sys2Proof Sys2Proof.Machine

/-- Settles O30: the fade as one update, whose last level is 254. -/
theorem fadeInEndsAtLevel254 : Obligations.FadeInEndsAtLevel254 := by
  intro s d hready hinv
  have hcc := twelve_le_cc hinv
  refine ⟨_, _, _, exec_fadeIn hready hcc, ?frames, ?pauses, fun lvl hlvl => ?pause, by simp, by simp, by simp,
    by simp, faded_succ_shows (level := 254) hinv, fun a ha => readByte_faded _ hcc (outside_channels hcc ha)⟩
  case frames =>
    rw [fadeFrames_length]
    cases Config.fadeWriteMode <;> rfl
  case pauses => simp [fadePauses, Config.fadeLevels]
  case pause =>
    rw [fadePauses_getElem _ _ _ (show lvl < Config.fadeLevels from hlvl)]
    cases Config.fadeWriteMode <;> simp [framesPerLevel]

/-- Settles O31: each frame is the buffer once the lights so far were rendered over the level before. -/
theorem fadeInFramesRampLightByLight : Obligations.FadeInFramesRampLightByLight := by
  intro s t d hready hinv hexec
  rw [exec_fadeIn hready (twelve_le_cc hinv)] at hexec
  cases hexec
  refine ⟨_, rfl, fun hmode lvl hlvl l => ?perLight, fun hmode lvl hlvl => ?perLevel⟩
  case perLight =>
    rw [hmode]
    refine ⟨_, fadeFrames_perLight hlvl l, fun l' hle => ?_, fun l' hlt hpos => ?_, fun l' hlt hzero j hj => ?_,
      fun a => levelFrame_outside hinv⟩
    · exact levelFrame_shows hinv (lights_nodup.sublist (List.take_sublist _ _)) ((mem_take_lights l l').2 hle)
    · obtain ⟨n, rfl⟩ : ∃ n, lvl = n + 1 := ⟨lvl - 1, by omega⟩
      exact levelFrame_shows_before hinv (by rw [mem_take_lights]; omega)
    · subst hzero
      exact frameChannel_levelFrame_zero hinv (by rw [mem_take_lights]; omega) hj
  case perLevel =>
    rw [hmode]
    exact ⟨_, fadeFrames_perLevel hlvl, fun l => levelFrame_shows hinv lights_nodup (mem_lights l),
      fun a => levelFrame_outside hinv⟩

end
